-- ==== Sys2Proof/Config.lean ====
section
/-! DEFINITION. The implementation parameters of 00_scope.md R8, each a named constant, so that a correction
changes one definition (R8, R9; the numerals are the document's, unaudited: 92_eei_decisions.md D7, log 14). -/

namespace Sys2Proof.Config

/-! ### Widths -/

/-- `TOKEN_WIDTH`: bits of a word of the input port (R8, 30_encoding.md R85). -/
abbrev tokenWidth : Nat := 32

/-- `OP_WIDTH`: the opcode is the top `opWidth` bits of a token, [31:28] (R8, 30_encoding.md R85). -/
abbrev opWidth : Nat := 4

/-- `NCH_WIDTH`: bits of the channel count (R8, 10_state.md R23). -/
abbrev nchWidth : Nat := 8

/-- `COUNTER_WIDTH`: bits of a counter (R8, 10_state.md R34). -/
abbrev counterWidth : Nat := 32

/-- `REG_ADDR_WIDTH`: bits of a register address (R8, 10_state.md R32). -/
abbrev regAddrWidth : Nat := 8

/-! ### Markers -/

/-- `MARKER_LIVE`: the bytes `AA 55` in stream order (R8, 20_memory.md R62). -/
def markerLive : List (BitVec 8) := [0xAA#8, 0x55#8]

/-- `MARKER_LEGACY`: the bytes `A5 A5 A5 A5` (R8, 20_memory.md R62). -/
def markerLegacy : List (BitVec 8) := [0xA5#8, 0xA5#8, 0xA5#8, 0xA5#8]

/-- `SESSION_MARKER`: the bytes `A5 A5 A5 A5` (R8). The byte-serial detector counts its repeated byte
(42_offline_splitter.md R176), so it takes a marker of one byte repeated. -/
def sessionMarker : List (BitVec 8) := [0xA5#8, 0xA5#8, 0xA5#8, 0xA5#8]

/-- The byte whose repetition is `SESSION_MARKER` (42_offline_splitter.md R176). -/
def sessionByte : BitVec 8 := sessionMarker.headD 0#8

/-- How many bytes make a session marker, its width (R8, 42_offline_splitter.md R171). -/
def sessionWidth : Nat := sessionMarker.length

/-! ### Frame sizes -/

/-- `FS_LIVE(N)`: payload bytes of a LIVE frame with `n` channels (R8). -/
def fsLive (n : Nat) : Nat := 12 + 2 * n

/-- `FS_LEGACY`: payload bytes of a LEGACY36 frame (R8). -/
def fsLegacy : Nat := 36

/-- `FS_MAX`: the size of the frame buffer in bytes, 522, the LIVE frame of the greatest `NCH` (R8, 20_memory.md R60). -/
def fsMax : Nat := fsLive (2 ^ nchWidth - 1)

/-! ### Identity and units -/

/-- `ID_VALUE` (R8, 10_state.md R33). -/
def idValue : BitVec 32 := 0x46530001#32

/-- `HAS_OFFLINE`: the SPLIT unit is present (R8); a build may set `false` (10_state.md R26). What depends on it
is written for both values and takes it as an argument; the machine uses this one (log 9). -/
def hasOffline : Bool := true

end Sys2Proof.Config
end

