-- ==== Sys2Proof/Word.lean ====
section
/-! DEFINITION. The word types of the block: the width parameters of 00_scope.md R8 (named in
Config.lean), one type each. Every value of the block is unsigned (R10). -/

namespace Sys2Proof

/-- One stream byte, and a `u8` field of a frame. -/
abbrev Byte := BitVec 8

/-- A `u16` field of a frame. -/
abbrev Half := BitVec 16

/-- A `u32` field of a frame, and the 32-bit value a register reads as (10_state.md R32). -/
abbrev Word := BitVec 32

/-- A word of the input port: `TOKEN_WIDTH` bits (00_scope.md R8, 30_encoding.md R85). -/
abbrev Token := BitVec Config.tokenWidth

/-- A counter: `COUNTER_WIDTH` bits, and addition wraps (00_scope.md R8, 10_state.md R34). -/
abbrev Counter := BitVec Config.counterWidth

/-- A register address: `REG_ADDR_WIDTH` bits (00_scope.md R8, 10_state.md R32). -/
abbrev RegAddr := BitVec Config.regAddrWidth

/-- The channel count `N`: `NCH_WIDTH` bits (00_scope.md R8, 10_state.md R23). -/
abbrev ChannelCount := BitVec Config.nchWidth

/-- The used bits of `CTRL`: `NCH`, and above it `LAYOUT`, `MARKER` and `MODE` (10_state.md R22). -/
abbrev ctrlWidth : Nat := Config.nchWidth + 3

/-- The used bits of `CTRL`, and the `VALUE` operand of CFG_WRITE (10_state.md R22, 30_encoding.md R88).
The reserved bits [31:11] have no storage: they read 0 (R27). DEDUCED, log 6. -/
abbrev Ctrl := BitVec ctrlWidth

/-- `CTRL` bit [8], `LAYOUT`, the first above `NCH` (10_state.md R22). -/
abbrev layoutBit : Nat := Config.nchWidth

/-- `CTRL` bit [9], `MARKER` (10_state.md R22). -/
abbrev markerBit : Nat := Config.nchWidth + 1

/-- `CTRL` bit [10], `MODE` (10_state.md R22). -/
abbrev modeBit : Nat := Config.nchWidth + 2

end Sys2Proof
end

