-- ==== Sys2Proof/Syntax.lean ====
section
/-! DEFINITION. The instructions of the block: the token operations of spec/opcode_table.json, one constructor per
row, and the lines of the assembler syntax of 30_encoding.md section 4. -/

namespace Sys2Proof

/-- The token operations (30_encoding.md R85). -/
inductive Instr where
  /-- NOP (43_control_ops.md R201). -/
  | nop
  /-- FEED: one stream byte (43_control_ops.md R206). -/
  | feed (byte : Byte)
  /-- EOS: the end of the stream (43_control_ops.md R207). -/
  | eos
  /-- CFG_WRITE: `value` is laid out as `CTRL[10:0]` (43_control_ops.md R202). -/
  | cfgWrite (value : Ctrl)
  /-- RESTART (43_control_ops.md R203). -/
  | restart
  /-- READ: a register address (43_control_ops.md R204). -/
  | read (addr : RegAddr)
  deriving DecidableEq, Repr

/-- The register names of 10_state.md R32. -/
inductive RegName where
  | id | ctrl | status | frames | resyncs | discarded | lastGap | sessions | bytesIn | frameSize
  | decodeFails | gap | shortspans
  deriving DecidableEq, Repr

/-- A line of a token program: the syntax of 30_encoding.md R96 and the pseudo-instructions of R97. -/
inductive AsmLine where
  | nop
  | feed (b : Byte)
  | eos
  /-- `CFG <v>`. -/
  | cfg (v : Ctrl)
  /-- `CFG n=<N>[, legacy36][, marker4][, offline]`. -/
  | cfgFields (n : ChannelCount) (legacy36 marker4 offline : Bool)
  | restart
  /-- `READ <a>`. -/
  | read (a : RegAddr)
  /-- `READ <NAME>`. -/
  | readName (r : RegName)
  /-- `.word <w>`. -/
  | word (w : Token)
  | feeds (bs : List Byte)
  | feed16 (v : Half)
  | feed32 (v : Word)
  | mark
  | mark4
  deriving DecidableEq, Repr

end Sys2Proof
end

