-- ==== Sys2Proof/WellFormed.lean ====
section
/-! DEFINITION. Which instructions are well-formed. The operand widths are in the types; the one check left is that a
build without the offline unit has no CFG_WRITE with the `MODE` bit set (30_encoding.md R92). -/

namespace Sys2Proof

/-- Well-formed in a build whose `HAS_OFFLINE` is `off` (30_encoding.md R92, 10_state.md R26). -/
def Instr.wfWith (off : Bool) : Instr → Bool
  | .nop => true
  | .feed _ => true
  | .eos => true
  | .cfgWrite v => off || !v.getLsbD modeBit
  | .restart => true
  | .read _ => true

/-- Well-formed in the machine's own build. -/
def Instr.wf (i : Instr) : Bool := i.wfWith Config.hasOffline

end Sys2Proof
end

