-- ==== Sys2Proof/Decode.lean ====
section
/-! DEFINITION. The token encoding (30_encoding.md R85 to R92): the rows of match and mask, the decoder, the encoder,
and the assembler of section 4 (R96, R97). -/

namespace Sys2Proof

/-- A row of the opcode map: the instruction kind is named by `Op`. -/
inductive Op where
  | nop | feed | eos | cfgWrite | restart | read
  deriving DecidableEq, Repr

/-- One row: a token `t` belongs to it when `t & mask == pattern` (30_encoding.md R92). -/
structure Row where
  op : Op
  pattern : Token
  mask : Token
  deriving DecidableEq, Repr

/-- The opcode `OP` of an operation (30_encoding.md R85). -/
def Op.code : Op → BitVec Config.opWidth
  | .nop => 0x0#Config.opWidth
  | .feed => 0x1#Config.opWidth
  | .eos => 0x2#Config.opWidth
  | .cfgWrite => 0x3#Config.opWidth
  | .restart => 0x4#Config.opWidth
  | .read => 0x5#Config.opWidth

/-- How many low bits of the token carry the operand: `BYTE`, `VALUE` and `ADDR` (30_encoding.md R86, R88, R90). -/
def Op.operandWidth : Op → Nat
  | .nop => 0
  | .feed => 8
  | .eos => 0
  | .cfgWrite => ctrlWidth
  | .restart => 0
  | .read => Config.regAddrWidth

/-- The pattern and mask of an operation's row: `OP` in the token's top `OP_WIDTH` bits, and every bit but the operand's
fixed. With the parameters of 00_scope.md R8 these are the words of 30_encoding.md R86 to R91 (the lemmas `rowOf_…` of
Laws/Encoding.lean write them out). -/
def rowOf (o : Op) : Row where
  op := o
  pattern := BitVec.ofNat Config.tokenWidth (o.code.toNat * 2 ^ (Config.tokenWidth - Config.opWidth))
  mask := BitVec.ofNat Config.tokenWidth (2 ^ Config.tokenWidth - 2 ^ o.operandWidth)

/-- The opcode map (30_encoding.md R85); 0x6..0xF have no row. -/
def rows : List Row := [.nop, .feed, .eos, .cfgWrite, .restart, .read].map rowOf

/-- Whether a token belongs to a row. -/
def Row.admits (r : Row) (t : Token) : Bool := t &&& r.mask == r.pattern

/-- Two rows share no token: a bit fixed by both has different values. -/
def Row.disjoint (a b : Row) : Bool := a.pattern &&& b.mask != b.pattern &&& a.mask

/-- `token[7:0]`: `BYTE` (30_encoding.md R86). -/
def byteField (t : Token) : Byte := t.extractLsb' 0 8

/-- `token[7:0]`: `ADDR` (30_encoding.md R90). -/
def addrField (t : Token) : RegAddr := t.extractLsb' 0 Config.regAddrWidth

/-- `token[10:0]`: `VALUE` (30_encoding.md R88). -/
def valueField (t : Token) : Ctrl := t.extractLsb' 0 ctrlWidth

/-- The instruction a token of an operation's row carries. -/
def instrOf (t : Token) : Op → Instr
  | .nop => .nop
  | .feed => .feed (byteField t)
  | .eos => .eos
  | .cfgWrite => .cfgWrite (valueField t)
  | .restart => .restart
  | .read => .read (addrField t)

/-- The instruction of the row a token belongs to, if any. -/
def decodeRow (t : Token) : Option Instr := (rows.find? (·.admits t)).map (instrOf t ·.op)

/-- Decoding in a build whose `HAS_OFFLINE` is `off`: total, and `none` is an illegal token (30_encoding.md R92). -/
def decodeWith (off : Bool) (t : Token) : Option Instr := (decodeRow t).filter (·.wfWith off)

/-- The decoder of the machine. -/
def decode (t : Token) : Option Instr := decodeWith Config.hasOffline t

/-- The operation of an instruction. -/
def Instr.op : Instr → Op
  | .nop => .nop
  | .feed _ => .feed
  | .eos => .eos
  | .cfgWrite _ => .cfgWrite
  | .restart => .restart
  | .read _ => .read

/-- The operand bits of an instruction's token (30_encoding.md R86, R88, R90). -/
def operandBits : Instr → Token
  | .nop => 0#Config.tokenWidth
  | .feed b => b.setWidth Config.tokenWidth
  | .eos => 0#Config.tokenWidth
  | .cfgWrite v => v.setWidth Config.tokenWidth
  | .restart => 0#Config.tokenWidth
  | .read a => a.setWidth Config.tokenWidth

/-- The token of an instruction: its row's pattern and its operand bits. -/
def encode (i : Instr) : Token := (rowOf i.op).pattern ||| operandBits i

/-- The instruction the decoder reads from the low `nbits` bits of `w`, numbered as spec/opcode_table.json numbers
them; a token is one word of `TOKEN_WIDTH` bits, so a longer value is none. -/
def decodeTableWord (nbits w : Nat) : Option Instr :=
  let v := w % 2 ^ nbits
  if v < 2 ^ Config.tokenWidth then decode (BitVec.ofNat Config.tokenWidth v) else none

/-! ### The assembler (30_encoding.md R96, R97) -/

/-- The address of a named register (10_state.md R32). -/
def RegName.addr : RegName → RegAddr
  | .id => 0x00#Config.regAddrWidth
  | .ctrl => 0x01#Config.regAddrWidth
  | .status => 0x02#Config.regAddrWidth
  | .frames => 0x03#Config.regAddrWidth
  | .resyncs => 0x04#Config.regAddrWidth
  | .discarded => 0x05#Config.regAddrWidth
  | .lastGap => 0x06#Config.regAddrWidth
  | .sessions => 0x07#Config.regAddrWidth
  | .bytesIn => 0x08#Config.regAddrWidth
  | .frameSize => 0x09#Config.regAddrWidth
  | .decodeFails => 0x0A#Config.regAddrWidth
  | .gap => 0x0B#Config.regAddrWidth
  | .shortspans => 0x0C#Config.regAddrWidth

/-- Every named register, in address order (10_state.md R32). -/
def RegName.all : List RegName :=
  [.id, .ctrl, .status, .frames, .resyncs, .discarded, .lastGap, .sessions, .bytesIn, .frameSize,
   .decodeFails, .gap, .shortspans]

/-- The bytes of a `u16`, least significant first (40_deserializer.md R118, 20_memory.md R61). -/
def bytes16 (v : Half) : List Byte := [v.extractLsb' 0 8, v.extractLsb' 8 8]

/-- The bytes of a `u32`, least significant first (40_deserializer.md R118, 20_memory.md R61). -/
def bytes32 (v : Word) : List Byte :=
  [v.extractLsb' 0 8, v.extractLsb' 8 8, v.extractLsb' 16 8, v.extractLsb' 24 8]

/-- FEED tokens of a chunk of bytes, in order (30_encoding.md R97, 20_memory.md R74). -/
def feedTokens (bs : List Byte) : List Token := bs.map (fun b => encode (.feed b))

/-- The `CTRL` value of the assembler's named fields (30_encoding.md R96). -/
def cfgValue (n : ChannelCount) (legacy36 marker4 offline : Bool) : Ctrl :=
  n.setWidth ctrlWidth ||| (if legacy36 then BitVec.twoPow ctrlWidth layoutBit else 0#ctrlWidth)
    ||| (if marker4 then BitVec.twoPow ctrlWidth markerBit else 0#ctrlWidth)
    ||| (if offline then BitVec.twoPow ctrlWidth modeBit else 0#ctrlWidth)

/-- The tokens of one line (30_encoding.md R96, R97). -/
def assembleLine : AsmLine → List Token
  | .nop => [encode .nop]
  | .feed b => feedTokens [b]
  | .eos => [encode .eos]
  | .cfg v => [encode (.cfgWrite v)]
  | .cfgFields n l m o => [encode (.cfgWrite (cfgValue n l m o))]
  | .restart => [encode .restart]
  | .read a => [encode (.read a)]
  | .readName r => [encode (.read r.addr)]
  | .word w => [w]
  | .feeds bs => feedTokens bs
  | .feed16 v => feedTokens (bytes16 v)
  | .feed32 v => feedTokens (bytes32 v)
  | .mark => feedTokens Config.markerLive
  | .mark4 => feedTokens Config.sessionMarker

/-- The tokens of a program, line by line. -/
def assemble (p : List AsmLine) : List Token := p.flatMap assembleLine

end Sys2Proof
end

