-- ==== Sys2Proof/Machine/State.lean ====
section
/-! DEFINITION. The state of the block (10_state.md R20), the records its output port carries (30_encoding.md R93 to
R95), the reasons a step can stop, and the state after reset (R48). -/

namespace Sys2Proof.Machine

/-- A decoded frame (30_encoding.md R94). -/
structure FrameRecord where
  timestampUs : Word
  sequence : Word
  validMask : Byte
  statusBits : Byte
  solenoidState : Half
  /-- Empty for LIVE; `payload[0..3]` for LEGACY36. -/
  ext32 : List Word
  /-- The `N` channels for LIVE; `raw_adc[0..3]` for LEGACY36. -/
  ch16 : List Half
  deriving DecidableEq, Repr

/-- The causes of an ERROR event (30_encoding.md R95, 60_exceptions.md R232). -/
inductive ErrorKind where
  | illegalToken
  | cfgLocked
  | afterClose
  /-- Reserved: never emitted (40_deserializer.md R115). -/
  | decodeFailure
  deriving DecidableEq, Repr

/-- The records of the output port (30_encoding.md R93). A field that carries a counter, or a part of one, has a counter's
width. -/
inductive Event where
  | frame (session : Counter) (rec : FrameRecord)
  | resync (gap : Counter)
  | sessionStart (index skipped : Counter)
  | sessionEnd (index frames tail : Counter)
  | noMarker
  | closed (unreported : Counter)
  | readData (addr : RegAddr) (value : Word)
  | error (err : ErrorKind) (token : Token)
  deriving DecidableEq, Repr

/-- `PHASE` (10_state.md R29): the three values that occur. The value 3 has no name, since it never occurs
(DEDUCED, log 5). -/
inductive Phase where
  /-- 0: live HUNT, offline PREAMBLE. -/
  | hunt
  /-- 1: live COLLECT, offline SESSION. -/
  | collect
  /-- 2: CLOSED in both modes. -/
  | closed
  deriving DecidableEq, Repr

/-- What arrives at the block from outside (log 1): a token on the token port (30_encoding.md R85), or the reset input
asserted between two tokens (70_reset_and_hazards.md R260, 93_implementation_defined.md I21, log 3). -/
inductive Input where
  | token (t : Token)
  | reset
  deriving DecidableEq, Repr

/-- The frame buffer `FB`: (address, byte) cells, addresses strictly rising and below `FS_MAX`, no byte 0; an address
with no cell reads 0, its reset value (10_state.md R48, 20_memory.md R60, log 7). -/
abbrev Memory := List Host.Cell

/-- The state: the elements of 10_state.md R20 and the two ports. -/
structure State where
  /-- `CTRL` (R22). -/
  ctrl : Ctrl
  /-- `PHASE` (R29). -/
  phase : Phase
  /-- `J`, the marker-match length (R29). -/
  j : BitVec 2
  /-- `FB`, the frame buffer (R29). -/
  fb : Memory
  /-- `FCNT`, the count of valid bytes in `FB` (R29). -/
  fcnt : BitVec 10
  /-- `GAP` (R43). -/
  gap : Counter
  /-- `SFRAMES` (R29). -/
  sframes : Counter
  /-- `LOCKED` (R31). -/
  locked : Bool
  /-- `ERR_CFG` (R31). -/
  errCfg : Bool
  /-- `ERR_ILLEGAL` (R31). -/
  errIllegal : Bool
  /-- `ERR_AFTER_CLOSE` (R31). -/
  errAfterClose : Bool
  /-- `NOMARKER` (R31). -/
  nomarker : Bool
  /-- `FRAMES` (R35). -/
  frames : Counter
  /-- `RESYNCS` (R36). -/
  resyncs : Counter
  /-- `DISCARDED` (R37). -/
  discarded : Counter
  /-- `LAST_GAP` (R38). -/
  lastGap : Counter
  /-- `SESSIONS` (R39). -/
  sessions : Counter
  /-- `BYTES_IN` (R40). -/
  bytesIn : Counter
  /-- `SHORTSPANS` (R44). -/
  shortspans : Counter
  /-- The model's own: what has arrived and is not taken yet, oldest first (DESIGN CHOICE, log 1). -/
  input : List Input
  /-- The model's own: the events emitted so far, oldest first (20_memory.md R68, I22; DESIGN CHOICE, log 2). -/
  output : List Event
  deriving DecidableEq, Repr

/-- Why a step stops. The block itself never stops (20_memory.md R72). -/
inductive Fault where
  /-- Raised by `memRead` and `memWrite` on a frame-buffer address of 522 or more, which does not exist (20_memory.md
  R60). Safe: no state that a run reaches raises it (log 7, log 10). -/
  | frameBuffer (addr : Nat)
  deriving DecidableEq, Repr

/-- Why the model has no meaning for an instruction. -/
inductive Refusal where
  /-- Raised by an arm of `exec` that has no meaning yet; no arm has it. Safe. -/
  | notModelled (mnemonic : String)
  deriving DecidableEq, Repr

/-- After reset (10_state.md R48, 70_reset_and_hazards.md R260). The two ports, which are no elements of R20, are empty
(DESIGN CHOICE, log 1 and log 2). -/
def State.reset : State where
  ctrl := 0#ctrlWidth
  phase := .hunt
  j := 0#2
  fb := []
  fcnt := 0#10
  gap := 0#Config.counterWidth
  sframes := 0#Config.counterWidth
  locked := false
  errCfg := false
  errIllegal := false
  errAfterClose := false
  nomarker := false
  frames := 0#Config.counterWidth
  resyncs := 0#Config.counterWidth
  discarded := 0#Config.counterWidth
  lastGap := 0#Config.counterWidth
  sessions := 0#Config.counterWidth
  bytesIn := 0#Config.counterWidth
  shortspans := 0#Config.counterWidth
  input := []
  output := []

end Sys2Proof.Machine
end

