-- ==== Sys2Proof/Machine/Flags.lean ====
section
/-! DEFINITION. `STATUS` (10_state.md R31), the sticky error flags (R47, 60_exceptions.md R232) and the numeric codes of
the output port (30_encoding.md R93, R95). -/

namespace Sys2Proof.Machine

/-- The two bits of `PHASE` (10_state.md R29). -/
def Phase.code : Phase → BitVec 2
  | .hunt => 0#2
  | .collect => 1#2
  | .closed => 2#2

/-- A flag at bit `n` of a word. -/
def flagBit (f : Bool) (n : Nat) : Word := (BitVec.ofBool f).setWidth 32 <<< n

/-- `STATUS` (10_state.md R31): `PHASE` at [1:0], `J` at [3:2], `FCNT` at [13:4], the flags at 16 to 20, and 0 in the
reserved bits [15:14] and [31:21]. -/
def statusWord (s : State) : Word :=
  s.phase.code.setWidth 32 ||| s.j.setWidth 32 <<< 2 ||| s.fcnt.setWidth 32 <<< 4
    ||| flagBit s.locked 16 ||| flagBit s.errCfg 17 ||| flagBit s.errIllegal 18
    ||| flagBit s.errAfterClose 19 ||| flagBit s.nomarker 20

/-- Sets the sticky flag of an error; DECODE_FAILURE has none (60_exceptions.md R232). -/
def setErrorFlag (e : ErrorKind) (s : State) : State :=
  match e with
  | .illegalToken => { s with errIllegal := true }
  | .cfgLocked => { s with errCfg := true }
  | .afterClose => { s with errAfterClose := true }
  | .decodeFailure => s

/-- The `err` code of an ERROR event (30_encoding.md R95). -/
def ErrorKind.code : ErrorKind → BitVec 8
  | .illegalToken => 0x1#8
  | .cfgLocked => 0x2#8
  | .afterClose => 0x3#8
  | .decodeFailure => 0x4#8

/-- The numeric code of an event kind (30_encoding.md R93). -/
def Event.code : Event → Nat
  | .frame _ _ => 0x1
  | .resync _ => 0x2
  | .sessionStart _ _ => 0x3
  | .sessionEnd _ _ _ => 0x4
  | .noMarker => 0x5
  | .closed _ => 0x6
  | .readData _ _ => 0x7
  | .error _ _ => 0x8

end Sys2Proof.Machine
end

