-- ==== Sys2Proof/Machine/Operands.lean ====
section
/-! DEFINITION. The fields of `CTRL` and the values derived from it (10_state.md R22 to R28), and the little-endian
fields of a byte sequence (00_scope.md R11, 20_memory.md R61). -/

namespace Sys2Proof.Machine

/-- `CTRL.NCH` (10_state.md R23). -/
def ctrlNch (c : Ctrl) : ChannelCount := c.extractLsb' 0 Config.nchWidth

/-- `CTRL.LAYOUT`: true for LEGACY36 (10_state.md R24). -/
def ctrlLayout (c : Ctrl) : Bool := c.getLsbD layoutBit

/-- `CTRL.MARKER`: true for `A5 A5 A5 A5` (10_state.md R25). -/
def ctrlMarker (c : Ctrl) : Bool := c.getLsbD markerBit

/-- `CTRL.MODE`: true for offline; hardwired 0 where `HAS_OFFLINE`, given as `off`, is false (10_state.md R26). -/
def ctrlMode (off : Bool) (c : Ctrl) : Bool := off && c.getLsbD modeBit

/-- Whether the offline detector handles FEED and EOS (10_state.md R26). -/
def isOffline (c : Ctrl) : Bool := ctrlMode Config.hasOffline c

/-- The value `CTRL` reads as: bits [31:11] are 0 (10_state.md R27), and so is `MODE` where `HAS_OFFLINE` is false
(R26). -/
def ctrlWord (off : Bool) (c : Ctrl) : Word := (if off then c else c &&& ~~~BitVec.twoPow ctrlWidth modeBit).setWidth 32

/-- `FS` (10_state.md R28). -/
def frameSize (c : Ctrl) : Nat := if ctrlLayout c then Config.fsLegacy else Config.fsLive (ctrlNch c).toNat

/-- `M` (10_state.md R28). -/
def marker (c : Ctrl) : List Byte := if ctrlMarker c then Config.markerLegacy else Config.markerLive

/-- `W` (10_state.md R28). -/
def markerWidth (c : Ctrl) : Nat := (marker c).length

/-- The value of a byte sequence, least significant byte first: the sum of `s[i] * 2^(8*i)` (00_scope.md R11; that
little-endian means this is the spec's general knowledge G1, log 13). -/
def leValue : List Byte → Nat
  | [] => 0
  | b :: t => b.toNat + 256 * leValue t

/-- `s[a .. a+n)` (00_scope.md R10). -/
def slice (s : List Byte) (a n : Nat) : List Byte := (s.drop a).take n

/-- `le_16(s, o)` (00_scope.md R11). -/
def le16 (s : List Byte) (o : Nat) : Half := BitVec.ofNat 16 (leValue (slice s o 2))

/-- `le_32(s, o)` (00_scope.md R11). -/
def le32 (s : List Byte) (o : Nat) : Word := BitVec.ofNat 32 (leValue (slice s o 4))

end Sys2Proof.Machine
end

