-- ==== Sys2Proof/Machine/Ops.lean ====
section
/-! DEFINITION. The shared operations: the frame buffer, `emit`, `raise`, the register space, reset and RESTART. The
block has no trap (60_exceptions.md R236); `raise` is its one answer to an error (R231). -/

namespace Sys2Proof.Machine

/-! ### The frame buffer (20_memory.md R60) -/

/-- The byte at an address: 0, its reset value, where no cell lists it (10_state.md R48). -/
def Memory.read (m : Memory) (a : Nat) : Byte :=
  match m with
  | [] => 0#8
  | (x, v) :: t => if x = a then v else Memory.read t a

/-- Writes one byte and keeps the canonical form: a byte 0 has no cell. -/
def Memory.write (m : Memory) (a : Nat) (b : Byte) : Memory :=
  match m with
  | [] => if b = 0#8 then [] else [(a, b)]
  | (x, v) :: t =>
    if x = a then (if b = 0#8 then t else (a, b) :: t)
    else if a < x then (if b = 0#8 then (x, v) :: t else (a, b) :: (x, v) :: t)
    else (x, v) :: Memory.write t a b

/-- The canonical form: addresses rising from `lo` on and below `FS_MAX`, no byte 0. -/
def Memory.wfFrom (lo : Nat) (m : Memory) : Bool :=
  match m with
  | [] => true
  | (x, v) :: t => decide (lo ≤ x) && decide (x < Config.fsMax) && v != 0#8 && Memory.wfFrom (x + 1) t

/-- The canonical form of `FB`. -/
def Memory.wf (m : Memory) : Bool := Memory.wfFrom 0 m

/-- `MemWrite(addr, 1, v)` (00_scope.md R11). An address of 522 or more does not exist (20_memory.md R60). -/
def memWrite (a : Nat) (b : Byte) (s : State) : Except Fault State :=
  if a < Config.fsMax then .ok { s with fb := s.fb.write a b } else .error (.frameBuffer a)

/-- `FB[a .. a+n)`. -/
def Memory.span (m : Memory) (a n : Nat) : List Byte := (List.range n).map (fun i => m.read (a + i))

/-- `MemRead(addr, n)` (00_scope.md R11). An address of 522 or more does not exist (20_memory.md R60). -/
def memRead (a n : Nat) (s : State) : Except Fault (List Byte) :=
  if a + n ≤ Config.fsMax then .ok (s.fb.span a n) else .error (.frameBuffer (a + n - 1))

/-! ### The output port -/

/-- `emit E` (00_scope.md R11): events leave in emission order (20_memory.md R68). -/
def emit (e : Event) (s : State) : State := { s with output := s.output ++ [e] }

/-- `raise <Error>(t)`: sets the error's flag and emits `ERROR`, and nothing else (60_exceptions.md R231). -/
def raiseError (e : ErrorKind) (t : Token) (s : State) : State := emit (.error e t) (setErrorFlag e s)

/-! ### The register space (10_state.md R32) -/

/-- The register at an address, if one is mapped (10_state.md R32, R45). -/
def regAt (a : RegAddr) : Option RegName := RegName.all.find? (fun r => r.addr == a)

/-- What a register reads as in a build whose `HAS_OFFLINE` is `off` (10_state.md R31 to R44). -/
def regValueWith (off : Bool) (r : RegName) (s : State) : Word :=
  match r with
  | .id => Config.idValue
  | .ctrl => ctrlWord off s.ctrl
  | .status => statusWord s
  | .frames => s.frames.setWidth 32
  | .resyncs => s.resyncs.setWidth 32
  | .discarded => s.discarded.setWidth 32
  | .lastGap => s.lastGap.setWidth 32
  | .sessions => s.sessions.setWidth 32
  | .bytesIn => s.bytesIn.setWidth 32
  | .frameSize => BitVec.ofNat 32 (frameSize s.ctrl)
  | .decodeFails => 0#32
  | .gap => s.gap.setWidth 32
  | .shortspans => s.shortspans.setWidth 32

/-- `reg[a]`: an unmapped address reads 0 (10_state.md R32, R45). -/
def readReg (a : RegAddr) (s : State) : Word :=
  match regAt a with
  | some r => regValueWith Config.hasOffline r s
  | none => 0#32

/-! ### Reset (70_reset_and_hazards.md R260, R262) -/

/-- Every state element at its reset value; the ports are no state elements (R260: no event is emitted, and events
already emitted stay in the trace, 93_implementation_defined.md I22). -/
def resetElements (s : State) : State := { State.reset with input := s.input, output := s.output }

/-- Reset with `CTRL` kept (43_control_ops.md R203). -/
def restartElements (s : State) : State := { resetElements s with ctrl := s.ctrl }

/-! ### Ending an operation -/

/-- An operation's result as a step's outcome. -/
def finish (r : Except Fault State) : Host.Outcome State Fault Refusal :=
  match r with
  | .ok s => .next s
  | .error f => .fault f

end Sys2Proof.Machine
end

