-- ==== Sys2Proof/Machine/Deser.lean ====
section
/-! DEFINITION. The fixed-frame deserializer DESER (40_deserializer.md). It has no state (R110) and no failure (R115);
its callers hand it a span of exactly `FS` bytes (R112), so no byte past a span's end is ever taken (log 11). -/

namespace Sys2Proof.Machine

/-- `s[i]` of a span; a span handed to DESER always has the byte (R112, log 11). -/
def byteAt (s : List Byte) (i : Nat) : Byte := s.getD i 0#8

/-- DECODE_LIVE (R113): the LIVE layout of 30_encoding.md R81 with `n` channels. -/
def decodeLive (n : Nat) (s : List Byte) : FrameRecord where
  timestampUs := le32 s 0
  sequence := le32 s 4
  validMask := byteAt s 8
  statusBits := byteAt s 9
  solenoidState := le16 s 10
  ext32 := []
  ch16 := (List.range n).map (fun c => le16 s (12 + 2 * c))

/-- DECODE_LEGACY36 (R114): the LEGACY36 layout of 30_encoding.md R82. -/
def decodeLegacy36 (s : List Byte) : FrameRecord where
  timestampUs := le32 s 0
  sequence := le32 s 4
  validMask := byteAt s 8
  statusBits := byteAt s 9
  solenoidState := le16 s 10
  ext32 := (List.range 4).map (fun k => le32 s (12 + 4 * k))
  ch16 := (List.range 4).map (fun k => le16 s (28 + 2 * k))

/-- DECODE: the layout `CTRL` selects (R111). -/
def decodeSpan (c : Ctrl) (s : List Byte) : FrameRecord :=
  if ctrlLayout c then decodeLegacy36 s else decodeLive (ctrlNch c).toNat s

/-- The 12-byte prefix both layouts share (R118). -/
def encodePrefix (r : FrameRecord) : List Byte :=
  bytes32 r.timestampUs ++ bytes32 r.sequence ++ [r.validMask] ++ [r.statusBits] ++ bytes16 r.solenoidState

/-- ENCODE_LIVE, the spec-level encoder of R118 (no hardware). -/
def encodeLive (r : FrameRecord) : List Byte := encodePrefix r ++ r.ch16.flatMap bytes16

/-- ENCODE_LEGACY36, the spec-level encoder of R118 (no hardware). -/
def encodeLegacy36 (r : FrameRecord) : List Byte :=
  encodePrefix r ++ r.ext32.flatMap bytes32 ++ r.ch16.flatMap bytes16

end Sys2Proof.Machine
end

