-- ==== Sys2Proof/Machine/LiveSync.lean ====
section
/-! DEFINITION. The live frame synchronizer SYNC (41_live_sync.md). The operations run after the prologues of
43_control_ops.md R206 and R207. -/

namespace Sys2Proof.Machine

/-- The greatest `l` not above the bound whose last `l` bytes of `s` are the first `l` bytes of `m`. -/
def keepUpTo (m s : List Byte) : Nat → Nat
  | 0 => 0
  | l + 1 => if l + 1 ≤ s.length ∧ s.drop (s.length - (l + 1)) = m.take (l + 1) then l + 1 else keepUpTo m s l

/-- `KEEP(s)` for the marker `m`: the length of the longest suffix of `s` that is a proper prefix of `m` (R141). -/
def keep (m s : List Byte) : Nat := keepUpTo m s (m.length - 1)

/-- The report at a marker acquisition: a RESYNC when bytes were discarded since the last report (R143, R150). -/
def reportGap (s : State) : State :=
  if s.gap = 0#Config.counterWidth then s
  else { emit (.resync s.gap) { s with resyncs := s.resyncs + 1, lastGap := s.gap } with gap := 0#Config.counterWidth }

/-- FEED in live mode, phase HUNT (R143). -/
def feedLiveHunt (b : Byte) (s : State) : State :=
  let m := marker s.ctrl
  let held := m.take s.j.toNat ++ [b]
  if held = m then
    { reportGap s with phase := .collect, j := 0#2, fcnt := 0#10 }
  else
    let kept := keep m held
    let d := BitVec.ofNat Config.counterWidth (held.length - kept)
    { s with gap := s.gap + d, discarded := s.discarded + d, j := BitVec.ofNat 2 kept }

/-- `MemWrite(FCNT, 1, b); FCNT <- FCNT + 1` (R144, 42_offline_splitter.md R178). -/
def storeByte (b : Byte) (s : State) : Except Fault State :=
  (memWrite s.fcnt.toNat b s).map (fun s1 => { s1 with fcnt := s1.fcnt + 1 })

/-- FEED in live mode, phase COLLECT (R144). -/
def feedLiveCollect (b : Byte) (s : State) : Except Fault State :=
  (storeByte b s).bind fun s1 =>
    if s1.fcnt.toNat = frameSize s1.ctrl then
      (memRead 0 (frameSize s1.ctrl) s1).map fun span =>
        { emit (.frame 0#Config.counterWidth (decodeSpan s1.ctrl span)) { s1 with frames := s1.frames + 1 } with
          phase := .hunt, j := 0#2, fcnt := 0#10 }
    else .ok s1

/-- EOS in live mode (R145): `PHASE` is HUNT or COLLECT. -/
def eosLive (s : State) : State :=
  let held := BitVec.ofNat Config.counterWidth (if s.phase = .hunt then s.j.toNat else markerWidth s.ctrl + s.fcnt.toNat)
  { emit (.closed (s.gap + held)) s with
    shortspans := if s.phase = .hunt then s.shortspans else s.shortspans + 1
    discarded := s.discarded + held
    gap := 0#Config.counterWidth, j := 0#2, fcnt := 0#10, phase := .closed }

end Sys2Proof.Machine
end

