-- ==== Sys2Proof/Machine/OfflineSplit.lean ====
section
/-! DEFINITION. The byte-serial offline frame-boundary detector SPLIT (42_offline_splitter.md R176 to R180). The
operations run after the prologues of 43_control_ops.md R206 and R207. -/

namespace Sys2Proof.Machine

/-- COMMIT: hands one confirmed data byte to the current region (R178). -/
def commit (x : Byte) (s : State) : Except Fault State :=
  if s.phase = .hunt then
    .ok { s with gap := s.gap + 1, discarded := s.discarded + 1 }
  else
    (storeByte x s).bind fun s1 =>
      if s1.fcnt.toNat = frameSize s1.ctrl then
        (memRead 0 (frameSize s1.ctrl) s1).map fun span =>
          { emit (.frame (s1.sessions - 1) (decodeSpan s1.ctrl span))
              { s1 with frames := s1.frames + 1, sframes := s1.sframes + 1 } with
            fcnt := 0#10 }
      else .ok s1

/-- COMMIT of each byte in order. -/
def commitAll (bs : List Byte) (s : State) : Except Fault State :=
  match bs with
  | [] => .ok s
  | x :: t => (commit x s).bind (commitAll t)

/-- CLOSE_SESSION: ends the current session (R179). -/
def closeSession (s : State) : State :=
  let tail := s.fcnt.setWidth Config.counterWidth
  { emit (.sessionEnd (s.sessions - 1) s.sframes tail) s with
    shortspans := if s.fcnt = 0#10 then s.shortspans else s.shortspans + 1
    discarded := s.discarded + tail
    fcnt := 0#10 }

/-- A session marker is complete (the body of R176's `if`). -/
def startSession (s : State) : State :=
  let s1 := if s.phase = .collect then closeSession s else s
  { emit (.sessionStart s1.sessions s1.gap) { s1 with sessions := s1.sessions + 1 } with
    gap := 0#Config.counterWidth, phase := .collect, sframes := 0#Config.counterWidth, fcnt := 0#10 }

/-- FEED in offline mode, byte `A5` (R176). -/
def feedOfflineA5 (s : State) : State :=
  let n := s.j.toNat + 1
  if n = Config.sessionWidth then startSession { s with j := 0#2 } else { s with j := BitVec.ofNat 2 n }

/-- FEED in offline mode, any other byte (R177): the pending `A5` bytes were data. -/
def feedOfflineOther (b : Byte) (s : State) : Except Fault State :=
  commitAll (List.replicate s.j.toNat Config.sessionByte ++ [b]) { s with j := 0#2 }

/-- The end of an offline capture once the pending bytes are committed (R180). -/
def endCapture (s : State) : State :=
  let s1 := if s.phase = .collect then closeSession s else emit .noMarker { s with nomarker := true }
  { emit (.closed s1.gap) s1 with gap := 0#Config.counterWidth, phase := .closed }

/-- EOS in offline mode (R180): fewer than 4 pending `A5` bytes cannot be a marker. -/
def eosOffline (s : State) : Except Fault State :=
  (commitAll (List.replicate s.j.toNat Config.sessionByte) { s with j := 0#2 }).map endCapture

end Sys2Proof.Machine
end

