-- ==== Sys2Proof/Machine/Control.lean ====
section
/-! DEFINITION. Token dispatch and the control operations (43_control_ops.md): the meaning of each instruction, and
ILLEGAL. The token an ERROR event names is the instruction's own word, `encode` of it (log 8). An ERROR is a next state,
not a fault (60_exceptions.md R233, log 15). -/

namespace Sys2Proof.Machine

/-- ILLEGAL (R205): refused with no other effect. -/
def illegalToken (t : Token) (s : State) : State := raiseError .illegalToken t s

/-- NOP (R201). -/
def execNop (s : State) : Host.Outcome State Fault Refusal := .next s

/-- FEED to the unit `CTRL.MODE` selects, after the prologue (R206). -/
def feedUnit (b : Byte) (s : State) : Except Fault State :=
  if isOffline s.ctrl then
    if b = Config.sessionByte then .ok (feedOfflineA5 s) else feedOfflineOther b s
  else if s.phase = .hunt then .ok (feedLiveHunt b s)
  else feedLiveCollect b s

/-- FEED (R206). -/
def execFeed (b : Byte) (s : State) : Host.Outcome State Fault Refusal :=
  if s.phase = .closed then .next (raiseError .afterClose (encode (.feed b)) s)
  else finish (feedUnit b { s with locked := true, bytesIn := s.bytesIn + 1 })

/-- EOS to the unit `CTRL.MODE` selects, after the prologue (R207). -/
def eosUnit (s : State) : Except Fault State :=
  if isOffline s.ctrl then eosOffline s else .ok (eosLive s)

/-- EOS (R207). -/
def execEos (s : State) : Host.Outcome State Fault Refusal :=
  if s.phase = .closed then .next (raiseError .afterClose (encode .eos) s)
  else finish (eosUnit { s with locked := true })

/-- CFG_WRITE in a build whose `HAS_OFFLINE` is `off` (R202): ILLEGAL_TOKEN is checked before CFG_LOCKED
(60_exceptions.md R235). -/
def cfgWriteWith (off : Bool) (v : Ctrl) (s : State) : State :=
  if off = false ∧ v.getLsbD modeBit = true then illegalToken (encode (.cfgWrite v)) s
  else if s.locked then raiseError .cfgLocked (encode (.cfgWrite v)) s
  else { s with ctrl := v }

/-- CFG_WRITE (R202). -/
def execCfgWrite (v : Ctrl) (s : State) : Host.Outcome State Fault Refusal :=
  .next (cfgWriteWith Config.hasOffline v s)

/-- RESTART (R203): held bytes are dropped with no event and no count. -/
def execRestart (s : State) : Host.Outcome State Fault Refusal := .next (restartElements s)

/-- READ (R204): no side effect. -/
def execRead (a : RegAddr) (s : State) : Host.Outcome State Fault Refusal :=
  .next (emit (.readData a (readReg a s)) s)

end Sys2Proof.Machine
end

