-- ==== Sys2Proof/Machine/Dispatch.lean ====
section
/-! DEFINITION. Token dispatch: one arm per row of spec/opcode_table.json (43_control_ops.md R200). -/

namespace Sys2Proof.Machine

def exec (i : Instr) (s : State) : Host.Outcome State Fault Refusal :=
  match i with
  | .nop => Sys2Proof.Machine.execNop s
  | .feed byte => Sys2Proof.Machine.execFeed byte s
  | .eos => Sys2Proof.Machine.execEos s
  | .cfgWrite value => Sys2Proof.Machine.execCfgWrite value s
  | .restart => Sys2Proof.Machine.execRestart s
  | .read addr => Sys2Proof.Machine.execRead addr s

end Sys2Proof.Machine
end

