-- ==== Sys2Proof/Machine/Step.lean ====
section
/-! DEFINITION. One step: the block takes what arrived first and runs it to completion (43_control_ops.md R200,
20_memory.md R67, 00_scope.md R12). -/

namespace Sys2Proof.Machine

/-- One token (R200): the operation it decodes to, or ILLEGAL (R205). -/
def runToken (t : Token) (s : State) : Host.Outcome State Fault Refusal :=
  match decode t with
  | some i => exec i s
  | none => .next (illegalToken t s)

/-- One step. With nothing waiting the block holds its state (60_exceptions.md R243). The reset input is taken between
tokens only (70_reset_and_hazards.md R260, 93_implementation_defined.md I21, log 3). -/
def step (s : State) : Host.Outcome State Fault Refusal :=
  match s.input with
  | [] => .next s
  | .reset :: rest => .next (resetElements { s with input := rest })
  | .token t :: rest => runToken t { s with input := rest }

/-- The token is the next to arrive (log 4). -/
def State.withFetchWord (s : State) (nbits w : Nat) : State :=
  { s with input := .token (BitVec.ofNat Config.tokenWidth (w % 2 ^ nbits)) :: s.input }

end Sys2Proof.Machine
end

