-- ==== Sys2Proof/Machine/Capture.lean ====
section
/-! DEFINITION. The batch meaning of offline mode, on a whole capture (42_offline_splitter.md R170 to R175): "the
normative meaning of offline mode", which the byte-serial detector of OfflineSplit.lean computes (R181). -/

namespace Sys2Proof.Machine

/-- The greedy scan of R171 from index `i`, with fuel for its loop. -/
def offsetsFrom (C : List Byte) : Nat → Nat → List Nat
  | 0, _ => []
  | fuel + 1, i =>
    if i + Config.sessionWidth ≤ C.length then
      if slice C i Config.sessionWidth = Config.sessionMarker then i :: offsetsFrom C fuel (i + Config.sessionWidth)
      else offsetsFrom C fuel (i + 1)
    else []

/-- Every session marker's start offset, in order (R171). -/
def sessionOffsets (C : List Byte) : List Nat := offsetsFrom C (C.length + 1) 0

/-- The region of each session (R172). -/
def regionsOf (C : List Byte) : List Nat → List (List Byte)
  | [] => []
  | [o] => [C.drop (o + Config.sessionWidth)]
  | o :: o' :: t =>
    slice C (o + Config.sessionWidth) (o' - (o + Config.sessionWidth)) :: regionsOf C (o' :: t)

/-- The frames of a region (R173). -/
def regionFrames (c : Ctrl) (region : List Byte) : List FrameRecord :=
  (List.range (region.length / frameSize c)).map
    (fun k => decodeSpan c (slice region (k * frameSize c) (frameSize c)))

/-- The events of session number `n` (R175). -/
def sessionEvents (c : Ctrl) (n skipped : Nat) (region : List Byte) : List Event :=
  .sessionStart (BitVec.ofNat Config.counterWidth n) (BitVec.ofNat Config.counterWidth skipped)
    :: (regionFrames c region).map (.frame (BitVec.ofNat Config.counterWidth n))
    ++ [.sessionEnd (BitVec.ofNat Config.counterWidth n) (BitVec.ofNat Config.counterWidth (region.length / frameSize c))
          (BitVec.ofNat Config.counterWidth (region.length % frameSize c))]

/-- The events of the sessions from number `n` on; only session 0 has skipped bytes (R175). -/
def sessionsEvents (c : Ctrl) (n skipped : Nat) : List (List Byte) → List Event
  | [] => []
  | r :: t => sessionEvents c n skipped r ++ sessionsEvents c (n + 1) 0 t

/-- The event sequence of a capture, as a whole (R175; R174 for a capture with no marker). -/
def captureEvents (c : Ctrl) (C : List Byte) : List Event :=
  let offsets := sessionOffsets C
  sessionsEvents c 0 (offsets.headD 0) (regionsOf C offsets)
    ++ (if offsets = [] then [.noMarker, .closed (BitVec.ofNat Config.counterWidth C.length)] else [.closed 0#Config.counterWidth])

end Sys2Proof.Machine
end

