-- ==== Sys2Proof/Machine/Stream.lean ====
section
/-! DEFINITION. What the live synchronizer is measured against (41_live_sync.md R146 to R149): the decoding of a whole
stream from an unbounded buffer that never discards on an empty search, and the document's chunk loop with the two
corrections of 90_conflicts.md C1 and C2. The loop's text is taken from the sentences R143 to R147 quote (log 12). -/

namespace Sys2Proof.Machine

/-- The lowest offset at which `m` occurs (R146). -/
def firstMarker (m : List Byte) : List Byte → Option Nat
  | [] => none
  | b :: t => if (b :: t).take m.length = m then some 0 else (firstMarker m t).map (· + 1)

/-- The events of a whole stream closed by EOS (R143 to R146), with fuel for the loop over frames. -/
def streamLoop (c : Ctrl) : Nat → List Byte → List Event
  | 0, _ => []
  | fuel + 1, S =>
    match firstMarker (marker c) S with
    | none => [.closed (BitVec.ofNat Config.counterWidth S.length)]
    | some k =>
      let p := S.drop (k + markerWidth c)
      (if k = 0 then [] else [.resync (BitVec.ofNat Config.counterWidth k)]) ++
        if p.length < frameSize c then [.closed (BitVec.ofNat Config.counterWidth (markerWidth c + p.length))]
        else .frame 0#Config.counterWidth (decodeSpan c (p.take (frameSize c))) :: streamLoop c fuel (p.drop (frameSize c))

/-- The events of a whole stream closed by EOS. -/
def streamEvents (c : Ctrl) (S : List Byte) : List Event := streamLoop c (S.length + 1) S

/-- The document's loop (§4.2 steps 2 to 6) on a buffer `B`, as R147 reads it: the frames it emits and the buffer it
leaves. -/
def docDrain (c : Ctrl) : Nat → List Byte → List FrameRecord × List Byte
  | 0, B => ([], B)
  | fuel + 1, B =>
    if B.length < markerWidth c then ([], B)
    else
      match firstMarker (marker c) B with
      | none => ([], B.drop (B.length - keep (marker c) B))
      | some k =>
        let p := B.drop (k + markerWidth c)
        if p.length < frameSize c then ([], B.drop k)
        else
          let r := docDrain c fuel (p.drop (frameSize c))
          (decodeSpan c (p.take (frameSize c)) :: r.1, r.2)

/-- The document's loop over the chunks the byte source delivers, from a buffer `B` (R147, 20_memory.md R74). -/
def docFrames (c : Ctrl) (B : List Byte) : List (List Byte) → List FrameRecord
  | [] => []
  | chunk :: t =>
    let r := docDrain c ((B ++ chunk).length + 1) (B ++ chunk)
    r.1 ++ docFrames c r.2 t

end Sys2Proof.Machine
end

