-- ==== Sys2Proof/Safety.lean ====
section
/-! DEFINITION. What the claims speak of: the held bytes, the invariant between tokens, byte conservation, the events
that report bytes, the boot order and the end of a run. -/

namespace Sys2Proof.Machine

/-- `HELD` (10_state.md R30). -/
def heldBytes (s : State) : Nat :=
  match s.phase with
  | .hunt => if isOffline s.ctrl then s.j.toNat + s.fcnt.toNat else s.j.toNat
  | .collect => if isOffline s.ctrl then s.j.toNat + s.fcnt.toNat else markerWidth s.ctrl + s.fcnt.toNat
  | .closed => 0

/-- What holds between tokens (10_state.md R29, R31, R36, R38, R39, R43, R47, R48). -/
structure State.Inv (s : State) : Prop where
  /-- `FB` is in its canonical form. -/
  fbCanonical : s.fb.wf = true
  /-- `FCNT < FS` (R29). -/
  fcntBelow : s.fcnt.toNat < frameSize s.ctrl
  /-- In HUNT and in PREAMBLE `FCNT = 0` (R29). -/
  huntEmpty : s.phase = .hunt → s.fcnt = 0#10
  /-- In live HUNT `J <= W-1` (R29). -/
  liveHunt : isOffline s.ctrl = false → s.phase = .hunt → s.j.toNat < markerWidth s.ctrl
  /-- In live COLLECT `J = 0` (R29). -/
  liveCollect : isOffline s.ctrl = false → s.phase = .collect → s.j = 0#2
  /-- In COLLECT and in SESSION `GAP = 0` (R43). -/
  collectGap : s.phase = .collect → s.gap = 0#Config.counterWidth
  /-- In CLOSED `J = 0` and `FCNT = 0` (R29); `GAP` was reported by CLOSED (R43). -/
  closedEmpty : s.phase = .closed → s.j = 0#2 ∧ s.fcnt = 0#10 ∧ s.gap = 0#Config.counterWidth
  /-- `SFRAMES`, `SESSIONS` and `NOMARKER` are offline only (R29, R31, R39). -/
  liveQuiet : isOffline s.ctrl = false → s.sframes = 0#Config.counterWidth ∧ s.sessions = 0#Config.counterWidth ∧ s.nomarker = false
  /-- `RESYNCS` and `LAST_GAP` are live only (R36, R38). -/
  offlineQuiet : isOffline s.ctrl = true → s.resyncs = 0#Config.counterWidth ∧ s.lastGap = 0#Config.counterWidth
  /-- In PREAMBLE no session and no frame was found (R29). -/
  preamble : isOffline s.ctrl = true → s.phase = .hunt →
    s.sessions = 0#Config.counterWidth ∧ s.frames = 0#Config.counterWidth ∧ s.sframes = 0#Config.counterWidth
  /-- While unlocked nothing but `CTRL` and `ERR_ILLEGAL` has left its reset value (R31, R48). -/
  unlocked : s.locked = false →
    s = { State.reset with ctrl := s.ctrl, errIllegal := s.errIllegal, input := s.input, output := s.output }
  /-- `ERR_AFTER_CLOSE` and `NOMARKER` are set only at or after the end of stream (R31). -/
  closedFlags : s.errAfterClose = true ∨ s.nomarker = true → s.phase = .closed

/-- The right side of the byte equation of 10_state.md R49 for the mode of `CTRL`, mod 2^32 (70_reset_and_hazards.md
R270). -/
def accountedBytes (s : State) : Counter :=
  if isOffline s.ctrl then
    BitVec.ofNat Config.counterWidth Config.sessionWidth * s.sessions
      + s.frames * BitVec.ofNat Config.counterWidth (frameSize s.ctrl) + s.discarded
      + BitVec.ofNat Config.counterWidth (heldBytes s)
  else
    s.frames * BitVec.ofNat Config.counterWidth (markerWidth s.ctrl + frameSize s.ctrl) + s.discarded
      + BitVec.ofNat Config.counterWidth (heldBytes s)

/-- The discarded bytes an event reports (10_state.md R49). -/
def Event.reported : Event → Counter
  | .resync g => g
  | .sessionStart _ k => k
  | .sessionEnd _ _ t => t
  | .closed u => u
  | .frame _ _ => 0#Config.counterWidth
  | .noMarker => 0#Config.counterWidth
  | .readData _ _ => 0#Config.counterWidth
  | .error _ _ => 0#Config.counterWidth

/-- The discarded bytes a list of events reports. -/
def reportedBytes (es : List Event) : Counter := (es.map Event.reported).sum

/-- Whether the next step takes the reset input or a RESTART token, the two that begin again (70_reset_and_hazards.md
R262). -/
def State.restarts (s : State) : Bool :=
  match s.input with
  | [] => false
  | .reset :: _ => true
  | .token t :: _ => decode t == some .restart

/-- Whether the next step takes a FEED that is not refused (43_control_ops.md R206). -/
def State.takesByte (s : State) : Bool :=
  match s.input with
  | .token t :: _ =>
    match decode t with
    | some (.feed _) => s.phase != .closed
    | _ => false
  | _ => false

/-- The `FB` address of the `k`-th byte stored from now on: the address `FCNT` points to, taken up again from 0 after
each whole frame (41_live_sync.md R144, 42_offline_splitter.md R178). -/
def storeAddr (s : State) (k : Nat) : Nat := (s.fcnt.toNat + k) % frameSize s.ctrl

/-- The `FB` addresses FEED `b` stores to (41_live_sync.md R144, 42_offline_splitter.md R176 to R178). -/
def feedStores (b : Byte) (s : State) : List Nat :=
  if s.phase = .collect then
    if isOffline s.ctrl then
      if b = Config.sessionByte then [] else (List.range (s.j.toNat + 1)).map (storeAddr s)
    else [storeAddr s 0]
  else []

/-- The `FB` addresses EOS stores to: the pending `A5` bytes of an offline session (42_offline_splitter.md R180). -/
def eosStores (s : State) : List Nat :=
  if s.phase = .collect ∧ isOffline s.ctrl = true then (List.range s.j.toNat).map (storeAddr s) else []

/-- How many events of a list meet a test. -/
def countEvents (p : Event → Bool) (es : List Event) : Counter := BitVec.ofNat Config.counterWidth (es.countP p)

/-- Whether an event is a FRAME. -/
def Event.isFrame : Event → Bool
  | .frame _ _ => true
  | _ => false

/-- Whether an event is a RESYNC. -/
def Event.isResync : Event → Bool
  | .resync _ => true
  | _ => false

/-- Whether an event is a SESSION_START. -/
def Event.isSessionStart : Event → Bool
  | .sessionStart _ _ => true
  | _ => false

/-- Whether an event is an ERROR. -/
def Event.isError : Event → Bool
  | .error _ _ => true
  | _ => false

/-- The frame record of a FRAME event. -/
def Event.record? : Event → Option FrameRecord
  | .frame _ r => some r
  | _ => none

/-- The end of a run: the first accepted EOS since reset or RESTART is taken (70_reset_and_hazards.md R274). -/
def State.runEnded (s : State) : Bool := s.phase == .closed

/-- Where a host stands in the boot order (70_reset_and_hazards.md R263). -/
inductive HostStage where
  /-- After a reset or RESTART, no FEED or EOS yet. -/
  | configure
  /-- FEED tokens have been sent. -/
  | stream
  /-- EOS has been sent. -/
  | done
  deriving DecidableEq, Repr

/-- Where one input leads a host that obeys the boot order; `none` when it breaks it (R263, log 16). -/
def HostStage.next (p : HostStage) : Input → Option HostStage
  | .reset => some .configure
  | .token t =>
    match decode t with
    | none => none
    | some .nop => some p
    | some (.read _) => some p
    | some .restart => some .configure
    | some (.cfgWrite _) => if p = .configure then some .configure else none
    | some (.feed _) => if p = .done then none else some .stream
    | some .eos => if p = .done then none else some .done

/-- Whether a host at a stage obeys the boot order with all it sends (R263). -/
def HostStage.obeys (p : HostStage) : List Input → Bool
  | [] => true
  | x :: t =>
    match p.next x with
    | none => false
    | some q => HostStage.obeys q t

/-- A byte stream as the token port's input (20_memory.md R74). -/
def feedInput (bs : List Byte) : List Input := (feedTokens bs).map .token

/-- The EOS token as the token port's input. -/
def eosInput : Input := .token (encode .eos)

/-- Two states that differ at most in bytes of `FB` that are not valid, `FB[FCNT..)` (93_implementation_defined.md
I17). -/
def sameButStaleBytes (s t : State) : Prop :=
  t = { s with fb := t.fb } ∧ ∀ a, a < s.fcnt.toNat → t.fb.read a = s.fb.read a

end Sys2Proof.Machine
end

