-- ==== Sys2Proof/Certificates/Slice0/Obligations.lean ====
section
/-! DEFINITION. The statements about the block, one per rule or group of rules of spec/ (OBLIGATIONS.json). An equation
`exec i s = .next { s with … }` is a completion statement, a result and a frame at once: every field it does not name
is unchanged. A statement about `step` or a run reads what arrives from the input list, which is the model's own field:
its docstring then names log 1. -/

open Sys2Proof Sys2Proof.Machine

/-! ### Reset, RESTART, the ports -/

/-- 10_state.md R48: every element after reset, and RESTART sets every element but `CTRL` to the same value (that the
ports, which are no elements of R20, stay as they are is the model's choice, log 1 and log 2). 43_control_ops.md R203:
RESTART is the word `0x40000000`, completes in every state, and emits no event. -/
def Obligations.ResetAndRestartValues : Prop :=
  (State.reset.ctrl = 0#11 ∧ State.reset.phase = .hunt ∧ State.reset.j = 0#2 ∧
    (∀ a, State.reset.fb.read a = 0#8) ∧ State.reset.fcnt = 0#10 ∧
    State.reset.gap = 0#32 ∧ State.reset.sframes = 0#32 ∧
    State.reset.locked = false ∧ State.reset.errCfg = false ∧ State.reset.errIllegal = false ∧
    State.reset.errAfterClose = false ∧ State.reset.nomarker = false ∧
    State.reset.frames = 0#32 ∧ State.reset.resyncs = 0#32 ∧ State.reset.discarded = 0#32 ∧
    State.reset.lastGap = 0#32 ∧ State.reset.sessions = 0#32 ∧ State.reset.bytesIn = 0#32 ∧
    State.reset.shortspans = 0#32) ∧
  (∀ t, decode t = some .restart ↔ t = 0x40000000#32) ∧
  ∀ s, exec .restart s = .next { State.reset with ctrl := s.ctrl, input := s.input, output := s.output }

/-- 70_reset_and_hazards.md R260: the reset input sets every element to its reset value, with no event; the first token
after it is taken next (log 1, log 3). -/
def Obligations.ResetInputClearsEveryElement : Prop :=
  ∀ s rest, s.input = .reset :: rest →
    step s = .next { State.reset with input := rest, output := s.output }

/-- 43_control_ops.md R200, R205, 60_exceptions.md R231, R243: a waiting token that decodes runs as its instruction on
the state with that token taken; one that does not only sets `ERR_ILLEGAL` and emits `ERROR{0x1, token}`; with nothing
waiting the state is held (log 1). -/
def Obligations.StepRunsTheDecodedToken : Prop :=
  (∀ s t rest i, s.input = .token t :: rest → decode t = some i → step s = exec i { s with input := rest }) ∧
  (∀ s t rest, s.input = .token t :: rest → decode t = none →
    step s = .next { s with input := rest, errIllegal := true, output := s.output ++ [.error .illegalToken t] }) ∧
  (∀ s, s.input = [] → step s = .next s)

/-- What stands in `withFetchWord` is what the next step runs: the word's instruction, or ILLEGAL (log 1, log 4). -/
def Obligations.FetchedWordIsRun : Prop :=
  ∀ s w, w < 2 ^ 32 →
    step (s.withFetchWord 32 w) =
      match decodeTableWord 32 w with
      | some i => exec i s
      | none => .next (raiseError .illegalToken (BitVec.ofNat 32 w) s)

/-! ### Encodings -/

/-- 30_encoding.md R86 to R92 for both values of `HAS_OFFLINE`: decoding is the test of the rows, which are disjoint,
and a word of no row is illegal. -/
def Obligations.DecodeFollowsTheRows : Prop :=
  (∀ off t, decodeWith off t =
    if t = 0x00000000#32 then some .nop
    else if t &&& 0xFFFFFF00#32 = 0x10000000#32 then some (.feed (t.setWidth 8))
    else if t = 0x20000000#32 then some .eos
    else if t &&& 0xFFFFF800#32 = 0x30000000#32 then
      if off = false ∧ t.getLsbD 10 = true then none else some (.cfgWrite (t.setWidth 11))
    else if t = 0x40000000#32 then some .restart
    else if t &&& 0xFFFFFF00#32 = 0x50000000#32 then some (.read (t.setWidth 8))
    else none) ∧
  (∀ a ∈ rows, ∀ b ∈ rows, a ≠ b → ∀ t, ¬(a.admits t = true ∧ b.admits t = true))

/-- Decoding the encoding of a well-formed instruction gives it back, with every operand at every value. -/
def Obligations.DecodeOfEncodeIsTheInstruction : Prop :=
  ∀ off i, i.wfWith off = true → decodeWith off (encode i) = some i

/-- A token has one meaning and a meaning has one token, so the token an ERROR event names is the one taken (log 8). -/
def Obligations.EncodeOfDecodeIsTheToken : Prop :=
  ∀ off t i, decodeWith off t = some i → encode i = t ∧ i.wfWith off = true

/-- Words written out from 30_encoding.md R86 to R91 and 95_test_vectors.md 2.1. -/
def Obligations.WrittenWordsDecode : Prop :=
  decode 0x00000000#32 = some .nop ∧ decode 0x100000FF#32 = some (.feed 0xFF#8) ∧
  decode 0x20000000#32 = some .eos ∧ decode 0x300007FF#32 = some (.cfgWrite 0x7FF#11) ∧
  decode 0x30000101#32 = some (.cfgWrite 0x101#11) ∧
  decode 0x40000000#32 = some .restart ∧ decode 0x5000000C#32 = some (.read 0x0C#8) ∧
  decode 0x00000001#32 = none ∧ decode 0x10000100#32 = none ∧ decode 0x20000001#32 = none ∧
  decode 0x30000800#32 = none ∧ decode 0x40000001#32 = none ∧ decode 0x50000100#32 = none ∧
  decode 0x60000000#32 = none ∧ decode 0xFFFFFFFF#32 = none ∧ decodeWith false 0x30000400#32 = none

/-- 30_encoding.md R96 and R97: each line of the assembler syntax is the stated word, and the pseudo-instructions expand
to FEED words in the stated order. -/
def Obligations.AssemblerLinesExpand : Prop :=
  (assembleLine .nop = [0x00000000#32] ∧ (∀ b, assembleLine (.feed b) = [0x10000000#32 ||| b.setWidth 32]) ∧
    assembleLine .eos = [0x20000000#32] ∧ (∀ v, assembleLine (.cfg v) = [0x30000000#32 ||| v.setWidth 32]) ∧
    (∀ n l m o, assembleLine (.cfgFields n l m o) = [0x30000000#32 ||| n.setWidth 32
      ||| (if l then 0x100#32 else 0#32) ||| (if m then 0x200#32 else 0#32) ||| (if o then 0x400#32 else 0#32)]) ∧
    assembleLine .restart = [0x40000000#32] ∧
    (∀ a, assembleLine (.read a) = [0x50000000#32 ||| a.setWidth 32]) ∧
    RegName.all.map (fun r => assembleLine (.readName r)) =
      (List.range 13).map (fun k => [0x50000000#32 + BitVec.ofNat 32 k]) ∧
    ∀ w, assembleLine (.word w) = [w]) ∧
  (∀ bs, assembleLine (.feeds bs) = bs.map (fun b => 0x10000000#32 ||| b.setWidth 32)) ∧
  (∀ v : Half, assembleLine (.feed16 v) =
    [0x10000000#32 ||| (v &&& 0xFF#16).setWidth 32, 0x10000000#32 ||| (v >>> 8).setWidth 32]) ∧
  (∀ v : Word, assembleLine (.feed32 v) =
    [0x10000000#32 ||| (v &&& 0xFF#32), 0x10000000#32 ||| ((v >>> 8) &&& 0xFF#32),
     0x10000000#32 ||| ((v >>> 16) &&& 0xFF#32), 0x10000000#32 ||| (v >>> 24)]) ∧
  assembleLine .mark = [0x100000AA#32, 0x10000055#32] ∧
  assembleLine .mark4 = [0x100000A5#32, 0x100000A5#32, 0x100000A5#32, 0x100000A5#32]

/-! ### Errors -/

/-- 60_exceptions.md R231: `raise` sets the flag, emits `ERROR`, and changes nothing else. The codes are those of
30_encoding.md R95. -/
def Obligations.RaiseSetsTheFlagAndEmits : Prop :=
  (∀ t s, raiseError .illegalToken t s =
      { s with errIllegal := true, output := s.output ++ [.error .illegalToken t] }) ∧
  (∀ t s, raiseError .cfgLocked t s = { s with errCfg := true, output := s.output ++ [.error .cfgLocked t] }) ∧
  (∀ t s, raiseError .afterClose t s =
      { s with errAfterClose := true, output := s.output ++ [.error .afterClose t] }) ∧
  ErrorKind.illegalToken.code = 0x1#8 ∧ ErrorKind.cfgLocked.code = 0x2#8 ∧ ErrorKind.afterClose.code = 0x3#8 ∧
  ErrorKind.decodeFailure.code = 0x4#8

/-! ### NOP, READ, CFG_WRITE -/

/-- 43_control_ops.md R201: NOP is the word `0x00000000`, and leaves the state unchanged. -/
def Obligations.NopChangesNothing : Prop :=
  (∀ t, decode t = some .nop ↔ t = 0x00000000#32) ∧ ∀ s, exec .nop s = .next s

/-- 43_control_ops.md R204 with the map of 10_state.md R32 (R33, R35 to R45): READ completes in every state, emits the
register's value, and changes nothing else. -/
def Obligations.ReadEmitsTheRegister : Prop :=
  (∀ t a, decode t = some (.read a) ↔ t = 0x50000000#32 ||| a.setWidth 32) ∧
  ∀ (a : RegAddr) s, exec (.read a) s = .next { s with output := s.output ++ [.readData a (
    if a = 0x00#8 then 0x46530001#32
    else if a = 0x01#8 then s.ctrl.setWidth 32
    else if a = 0x02#8 then statusWord s
    else if a = 0x03#8 then s.frames
    else if a = 0x04#8 then s.resyncs
    else if a = 0x05#8 then s.discarded
    else if a = 0x06#8 then s.lastGap
    else if a = 0x07#8 then s.sessions
    else if a = 0x08#8 then s.bytesIn
    else if a = 0x09#8 then (if s.ctrl.getLsbD 8 then 36#32 else 12#32 + 2#32 * (s.ctrl &&& 0xFF#11).setWidth 32)
    else if a = 0x0A#8 then 0#32
    else if a = 0x0B#8 then s.gap
    else if a = 0x0C#8 then s.shortspans
    else 0#32)] }

/-- 10_state.md R31: every bit of `STATUS`. -/
def Obligations.StatusFields : Prop :=
  ∀ s, (statusWord s).extractLsb' 0 2 = (match s.phase with | .hunt => 0#2 | .collect => 1#2 | .closed => 2#2) ∧
    (statusWord s).extractLsb' 2 2 = s.j ∧ (statusWord s).extractLsb' 4 10 = s.fcnt ∧
    (statusWord s).extractLsb' 14 2 = 0#2 ∧ (statusWord s).getLsbD 16 = s.locked ∧
    (statusWord s).getLsbD 17 = s.errCfg ∧ (statusWord s).getLsbD 18 = s.errIllegal ∧
    (statusWord s).getLsbD 19 = s.errAfterClose ∧ (statusWord s).getLsbD 20 = s.nomarker ∧
    (statusWord s).extractLsb' 21 11 = 0#11

/-- 43_control_ops.md R202, for both values of `HAS_OFFLINE` and for the machine's own. -/
def Obligations.CfgWriteWritesOnlyWhileUnlocked : Prop :=
  (∀ t v, decode t = some (.cfgWrite v) ↔ t = 0x30000000#32 ||| v.setWidth 32) ∧
  (∀ off v s, cfgWriteWith off v s =
    if off = false ∧ v.getLsbD 10 = true then
      { s with errIllegal := true
               output := s.output ++ [.error .illegalToken (0x30000000#32 ||| v.setWidth 32)] }
    else if s.locked then
      { s with errCfg := true, output := s.output ++ [.error .cfgLocked (0x30000000#32 ||| v.setWidth 32)] }
    else { s with ctrl := v }) ∧
  (∀ v s, s.locked = false → exec (.cfgWrite v) s = .next { s with ctrl := v }) ∧
  (∀ v s, s.locked = true → exec (.cfgWrite v) s = .next { s with
    errCfg := true, output := s.output ++ [.error .cfgLocked (0x30000000#32 ||| v.setWidth 32)] })

/-- 10_state.md R28: `FS`, `W` and `M` from the bits of `CTRL`, and the range of `FS`. -/
def Obligations.DerivedFromCtrl : Prop :=
  ∀ c : Ctrl, frameSize c = (if c.getLsbD 8 = false then 12 + 2 * (c.toNat % 256) else 36) ∧
    12 ≤ frameSize c ∧ frameSize c ≤ 522 ∧
    markerWidth c = (if c.getLsbD 9 = false then 2 else 4) ∧
    marker c = (if c.getLsbD 9 = false then [0xAA#8, 0x55#8] else [0xA5#8, 0xA5#8, 0xA5#8, 0xA5#8])

/-- 10_state.md R26: `CTRL.MODE` is bit 10, and hardwired 0 without the offline unit: it reads 0, it never selects the
offline detector, and a CFG_WRITE that sets it is an illegal token. -/
def Obligations.ModeWithoutTheOfflineUnit : Prop :=
  (∀ c, isOffline c = c.getLsbD 10) ∧
  (∀ c, ctrlMode false c = false ∧ (ctrlWord false c).getLsbD 10 = false) ∧
  (∀ v : Ctrl, v.getLsbD 10 = true → decodeWith false (0x30000000#32 ||| v.setWidth 32) = none)

/-! ### FEED and EOS -/

/-- 43_control_ops.md R206 and R207: the prologue of FEED and EOS and the operation each then runs. In CLOSED they only
set `ERR_AFTER_CLOSE` and emit `ERROR{0x3, token}` (60_exceptions.md R231), and the byte is not counted. -/
def Obligations.FeedAndEosDispatch : Prop :=
  (∀ t b, decode t = some (.feed b) ↔ t = 0x10000000#32 ||| b.setWidth 32) ∧
  (∀ t, decode t = some .eos ↔ t = 0x20000000#32) ∧
  (∀ b s, exec (.feed b) s =
    if s.phase = .closed then .next { s with
      errAfterClose := true, output := s.output ++ [.error .afterClose (0x10000000#32 ||| b.setWidth 32)] }
    else
      let p := { s with locked := true, bytesIn := s.bytesIn + 1 }
      if s.ctrl.getLsbD 10 = false then
        if s.phase = .hunt then .next (feedLiveHunt b p) else finish (feedLiveCollect b p)
      else if b = 0xA5#8 then .next (feedOfflineA5 p) else finish (feedOfflineOther b p)) ∧
  (∀ s, exec .eos s =
    if s.phase = .closed then .next { s with
      errAfterClose := true, output := s.output ++ [.error .afterClose 0x20000000#32] }
    else
      let p := { s with locked := true }
      if s.ctrl.getLsbD 10 = false then .next (eosLive p) else finish (eosOffline p))

/-! ### The live synchronizer -/

/-- 41_live_sync.md R141: `KEEP(s)` is the largest length, at most `W-1`, of a suffix of `s` that is a prefix of `M`. -/
def Obligations.KeepIsTheLongestMarkerPrefix : Prop :=
  ∀ (c : Ctrl) (s : List Byte),
    keep (marker c) s ≤ markerWidth c - 1 ∧ keep (marker c) s ≤ s.length ∧
    s.drop (s.length - keep (marker c) s) = (marker c).take (keep (marker c) s) ∧
    ∀ l, l ≤ markerWidth c - 1 → l ≤ s.length → s.drop (s.length - l) = (marker c).take l →
      l ≤ keep (marker c) s

/-- 41_live_sync.md R143, with the transitions of R142 for both markers. No match: the new `J`, and the number `d` of
bytes discarded, added to `GAP` and `DISCARDED`. Match: COLLECT begins, and a RESYNC reports `GAP` when it is not 0. -/
def Obligations.LiveHuntStep : Prop :=
  (∀ b s, isOffline s.ctrl = false → s.phase = .hunt → ctrlMarker s.ctrl = false →
    s.j = 0#2 ∨ s.j = 1#2 ∧ b ≠ 0x55#8 →
    exec (.feed b) s = .next { s with
      locked := true, bytesIn := s.bytesIn + 1
      j := if b = 0xAA#8 then 1#2 else 0#2
      gap := s.gap + (if b = 0xAA#8 then s.j.setWidth 32 else s.j.setWidth 32 + 1)
      discarded := s.discarded + (if b = 0xAA#8 then s.j.setWidth 32 else s.j.setWidth 32 + 1) }) ∧
  (∀ b s, isOffline s.ctrl = false → s.phase = .hunt → ctrlMarker s.ctrl = true →
    s.j ≠ 3#2 ∨ b ≠ 0xA5#8 →
    exec (.feed b) s = .next { s with
      locked := true, bytesIn := s.bytesIn + 1
      j := if b = 0xA5#8 then s.j + 1 else 0#2
      gap := s.gap + (if b = 0xA5#8 then 0 else s.j.setWidth 32 + 1)
      discarded := s.discarded + (if b = 0xA5#8 then 0 else s.j.setWidth 32 + 1) }) ∧
  (∀ b s, isOffline s.ctrl = false → s.phase = .hunt →
    (ctrlMarker s.ctrl = false ∧ s.j = 1#2 ∧ b = 0x55#8) ∨ (ctrlMarker s.ctrl = true ∧ s.j = 3#2 ∧ b = 0xA5#8) →
    exec (.feed b) s = .next (
      if s.gap = 0#32 then
        { s with locked := true, bytesIn := s.bytesIn + 1, phase := .collect, j := 0#2, fcnt := 0#10 }
      else
        { s with locked := true, bytesIn := s.bytesIn + 1, phase := .collect, j := 0#2, fcnt := 0#10
                 resyncs := s.resyncs + 1, lastGap := s.gap, gap := 0#32
                 output := s.output ++ [.resync s.gap] }))

/-- 41_live_sync.md R144: the byte is stored at `FCNT`; with the frame's last byte the span `FB[0..FS)` is decoded and
one FRAME with session 0 is emitted. -/
def Obligations.LiveCollectStoresAndEmits : Prop :=
  ∀ b s, isOffline s.ctrl = false → s.phase = .collect → s.fb.wf = true → s.fcnt.toNat < frameSize s.ctrl →
    exec (.feed b) s = .next (
      if s.fcnt.toNat + 1 = frameSize s.ctrl then
        { s with locked := true, bytesIn := s.bytesIn + 1, fb := s.fb.write s.fcnt.toNat b
                 frames := s.frames + 1
                 output := s.output ++ [.frame 0#32 (decodeSpan s.ctrl (s.fb.span 0 s.fcnt.toNat ++ [b]))]
                 phase := .hunt, j := 0#2, fcnt := 0#10 }
      else
        { s with locked := true, bytesIn := s.bytesIn + 1, fb := s.fb.write s.fcnt.toNat b, fcnt := s.fcnt + 1 })

/-- 41_live_sync.md R145. -/
def Obligations.LiveEosCloses : Prop :=
  (∀ s, isOffline s.ctrl = false → s.phase = .hunt →
    exec .eos s = .next { s with
      locked := true, discarded := s.discarded + s.j.setWidth 32
      output := s.output ++ [.closed (s.gap + s.j.setWidth 32)]
      gap := 0#32, j := 0#2, fcnt := 0#10, phase := .closed }) ∧
  (∀ s, isOffline s.ctrl = false → s.phase = .collect →
    exec .eos s = .next { s with
      locked := true, shortspans := s.shortspans + 1
      discarded := s.discarded + ((if ctrlMarker s.ctrl then 4#32 else 2#32) + s.fcnt.setWidth 32)
      output := s.output ++ [.closed (s.gap + ((if ctrlMarker s.ctrl then 4#32 else 2#32) + s.fcnt.setWidth 32))]
      gap := 0#32, j := 0#2, fcnt := 0#10, phase := .closed })

/-! ### The offline detector -/

/-- 42_offline_splitter.md R176 (with R179 for a marker inside a session). -/
def Obligations.OfflineMarkerByte : Prop :=
  (∀ s, isOffline s.ctrl = true → s.phase ≠ .closed → s.j ≠ 3#2 →
    exec (.feed 0xA5#8) s = .next { s with locked := true, bytesIn := s.bytesIn + 1, j := s.j + 1 }) ∧
  (∀ s, isOffline s.ctrl = true → s.phase = .hunt → s.j = 3#2 →
    exec (.feed 0xA5#8) s = .next { s with
      locked := true, bytesIn := s.bytesIn + 1, j := 0#2, sessions := s.sessions + 1
      output := s.output ++ [.sessionStart s.sessions s.gap]
      gap := 0#32, phase := .collect, sframes := 0#32, fcnt := 0#10 }) ∧
  (∀ s, isOffline s.ctrl = true → s.phase = .collect → s.j = 3#2 →
    exec (.feed 0xA5#8) s = .next { s with
      locked := true, bytesIn := s.bytesIn + 1, j := 0#2, sessions := s.sessions + 1
      shortspans := if s.fcnt = 0#10 then s.shortspans else s.shortspans + 1
      discarded := s.discarded + s.fcnt.setWidth 32
      output := s.output ++ [.sessionEnd (s.sessions - 1) s.sframes (s.fcnt.setWidth 32),
                             .sessionStart s.sessions s.gap]
      gap := 0#32, phase := .collect, sframes := 0#32, fcnt := 0#10 })

/-- 42_offline_splitter.md R177 and R178. In PREAMBLE the pending `A5` bytes and the byte are discarded. In SESSION they
are stored at `FCNT` and on; when they complete a frame, one FRAME is emitted and the bytes left over begin the next
frame at address 0. -/
def Obligations.OfflineOtherByte : Prop :=
  (∀ b s, isOffline s.ctrl = true → s.phase = .hunt → b ≠ 0xA5#8 →
    exec (.feed b) s = .next { s with
      locked := true, bytesIn := s.bytesIn + 1, j := 0#2
      gap := s.gap + (s.j.setWidth 32 + 1), discarded := s.discarded + (s.j.setWidth 32 + 1) }) ∧
  (∀ b s, isOffline s.ctrl = true → s.phase = .collect → b ≠ 0xA5#8 → s.fb.wf = true →
    s.fcnt.toNat < frameSize s.ctrl →
    ∃ fb, exec (.feed b) s = .next (
        if s.fcnt.toNat + s.j.toNat + 1 < frameSize s.ctrl then
          { s with locked := true, bytesIn := s.bytesIn + 1, j := 0#2, fb := fb
                   fcnt := s.fcnt + (s.j.setWidth 10 + 1) }
        else
          { s with locked := true, bytesIn := s.bytesIn + 1, j := 0#2, fb := fb
                   fcnt := s.fcnt + (s.j.setWidth 10 + 1) - BitVec.ofNat 10 (frameSize s.ctrl)
                   frames := s.frames + 1, sframes := s.sframes + 1
                   output := s.output ++ [.frame (s.sessions - 1) (decodeSpan s.ctrl
                     ((s.fb.span 0 s.fcnt.toNat ++ (List.replicate s.j.toNat 0xA5#8 ++ [b])).take
                       (frameSize s.ctrl)))] }) ∧
      ∀ a, fb.read a =
        if s.fcnt.toNat ≤ a ∧ a < s.fcnt.toNat + (s.j.toNat + 1) ∧ a < frameSize s.ctrl then
          (List.replicate s.j.toNat 0xA5#8 ++ [b]).getD (a - s.fcnt.toNat) 0#8
        else if a + frameSize s.ctrl < s.fcnt.toNat + (s.j.toNat + 1) then
          (List.replicate s.j.toNat 0xA5#8 ++ [b]).getD (a + frameSize s.ctrl - s.fcnt.toNat) 0#8
        else s.fb.read a)

/-- 42_offline_splitter.md R180. In PREAMBLE there is no session marker in the capture (R174). In SESSION the pending
`A5` bytes are committed (R178) and the session is closed (R179). -/
def Obligations.OfflineEosCloses : Prop :=
  (∀ s, isOffline s.ctrl = true → s.phase = .hunt →
    exec .eos s = .next { s with
      locked := true, j := 0#2, nomarker := true, discarded := s.discarded + s.j.setWidth 32
      output := s.output ++ [.noMarker, .closed (s.gap + s.j.setWidth 32)]
      gap := 0#32, phase := .closed }) ∧
  (∀ s, isOffline s.ctrl = true → s.phase = .collect → s.fb.wf = true → s.fcnt.toNat < frameSize s.ctrl →
    ∃ fb, exec .eos s = .next (
        if s.fcnt.toNat + s.j.toNat < frameSize s.ctrl then
          { s with locked := true, j := 0#2, fb := fb, fcnt := 0#10
                   shortspans := if s.fcnt.toNat + s.j.toNat = 0 then s.shortspans else s.shortspans + 1
                   discarded := s.discarded + BitVec.ofNat 32 (s.fcnt.toNat + s.j.toNat)
                   output := s.output ++ [.sessionEnd (s.sessions - 1) s.sframes
                     (BitVec.ofNat 32 (s.fcnt.toNat + s.j.toNat)), .closed s.gap]
                   gap := 0#32, phase := .closed }
        else
          { s with locked := true, j := 0#2, fb := fb, fcnt := 0#10
                   frames := s.frames + 1, sframes := s.sframes + 1
                   shortspans := if s.fcnt.toNat + s.j.toNat = frameSize s.ctrl then s.shortspans
                                 else s.shortspans + 1
                   discarded := s.discarded + BitVec.ofNat 32 (s.fcnt.toNat + s.j.toNat - frameSize s.ctrl)
                   output := s.output ++ [.frame (s.sessions - 1) (decodeSpan s.ctrl
                       ((s.fb.span 0 s.fcnt.toNat ++ List.replicate s.j.toNat 0xA5#8).take (frameSize s.ctrl))),
                     .sessionEnd (s.sessions - 1) (s.sframes + 1)
                       (BitVec.ofNat 32 (s.fcnt.toNat + s.j.toNat - frameSize s.ctrl)), .closed s.gap]
                   gap := 0#32, phase := .closed }) ∧
      ∀ a, fb.read a =
        if (s.fcnt.toNat ≤ a ∧ a < s.fcnt.toNat + s.j.toNat ∧ a < frameSize s.ctrl) ∨
            a + frameSize s.ctrl < s.fcnt.toNat + s.j.toNat then 0xA5#8
        else s.fb.read a)

/-! ### Frames: what an operation leaves unchanged -/

/-- NOP, READ and CFG_WRITE store nothing and leave the stream state and the counters alone; only CFG_WRITE changes
`CTRL`, and only CFG_WRITE sets an error flag. -/
def Obligations.ControlFrame : Prop :=
  ∀ i s t, (i = .nop ∨ (∃ a, i = .read a) ∨ ∃ v, i = .cfgWrite v) → exec i s = .next t →
    (∀ a, t.fb.read a = s.fb.read a) ∧
    t.phase = s.phase ∧ t.j = s.j ∧ t.fb = s.fb ∧ t.fcnt = s.fcnt ∧ t.gap = s.gap ∧ t.sframes = s.sframes ∧
    t.locked = s.locked ∧ t.errAfterClose = s.errAfterClose ∧ t.nomarker = s.nomarker ∧
    t.frames = s.frames ∧ t.resyncs = s.resyncs ∧ t.discarded = s.discarded ∧ t.lastGap = s.lastGap ∧
    t.sessions = s.sessions ∧ t.bytesIn = s.bytesIn ∧ t.shortspans = s.shortspans ∧ t.input = s.input ∧
    (t.ctrl = s.ctrl ∨ i = .cfgWrite t.ctrl ∧ s.locked = false) ∧
    ((t.errCfg = s.errCfg ∧ t.errIllegal = s.errIllegal) ∨ ∃ v, i = .cfgWrite v)

/-- FEED stores only to the addresses `feedStores` computes and never changes `CTRL`, `ERR_CFG`, `ERR_ILLEGAL` or
`NOMARKER`; refused, it stores nothing (41_live_sync.md R143, R144, 42_offline_splitter.md R176 to R179). -/
def Obligations.FeedFrame : Prop :=
  ∀ b s t, s.fb.wf = true → s.fcnt.toNat < frameSize s.ctrl → exec (.feed b) s = .next t →
    (∀ a, a ∉ feedStores b s → t.fb.read a = s.fb.read a) ∧
    t.ctrl = s.ctrl ∧ t.errCfg = s.errCfg ∧ t.errIllegal = s.errIllegal ∧ t.nomarker = s.nomarker ∧
    t.input = s.input ∧
    (s.phase ≠ .closed → t.errAfterClose = s.errAfterClose) ∧
    (isOffline s.ctrl = false → t.sframes = s.sframes ∧ t.sessions = s.sessions ∧ t.shortspans = s.shortspans) ∧
    (isOffline s.ctrl = true → t.resyncs = s.resyncs ∧ t.lastGap = s.lastGap)

/-- EOS stores only to the addresses `eosStores` computes and never changes `CTRL`, `ERR_CFG`, `ERR_ILLEGAL`,
`RESYNCS`, `LAST_GAP`, `SESSIONS` or `BYTES_IN` (41_live_sync.md R145, 42_offline_splitter.md R180). -/
def Obligations.EosFrame : Prop :=
  ∀ s t, s.fb.wf = true → s.fcnt.toNat < frameSize s.ctrl → exec .eos s = .next t →
    (∀ a, a ∉ eosStores s → t.fb.read a = s.fb.read a) ∧
    t.ctrl = s.ctrl ∧ t.errCfg = s.errCfg ∧ t.errIllegal = s.errIllegal ∧ t.input = s.input ∧
    t.resyncs = s.resyncs ∧ t.lastGap = s.lastGap ∧ t.sessions = s.sessions ∧ t.bytesIn = s.bytesIn ∧
    (s.phase ≠ .closed → t.errAfterClose = s.errAfterClose) ∧
    (isOffline s.ctrl = false → t.sframes = s.sframes ∧ t.frames = s.frames ∧ t.nomarker = s.nomarker)

/-! ### The deserializer -/

/-- 40_deserializer.md R113 (`CTRL.LAYOUT` = 0, `N` = `CTRL.NCH`), field by field, with `le_32` and
`le_16` written out (20_memory.md R61). -/
def Obligations.DecodeLiveFields : Prop :=
  ∀ (c : Ctrl) (n : Nat) (s : List Byte), c.getLsbD 8 = false → n = c.toNat % 256 → s.length = 12 + 2 * n →
    let r := decodeSpan c s
    let x := fun i => (s.getD i 0#8).toNat
    r.timestampUs.toNat = x 0 + 2 ^ 8 * x 1 + 2 ^ 16 * x 2 + 2 ^ 24 * x 3 ∧
    r.sequence.toNat = x 4 + 2 ^ 8 * x 5 + 2 ^ 16 * x 6 + 2 ^ 24 * x 7 ∧
    r.validMask.toNat = x 8 ∧ r.statusBits.toNat = x 9 ∧ r.solenoidState.toNat = x 10 + 256 * x 11 ∧
    r.ext32 = [] ∧ r.ch16.length = n ∧
    ∀ k, k < n → (r.ch16.getD k 0#16).toNat = x (12 + 2 * k) + 256 * x (12 + 2 * k + 1)

/-- 40_deserializer.md R114 (`CTRL.LAYOUT` = 1), field by field, with `le_32` and `le_16` written out
(20_memory.md R61). -/
def Obligations.DecodeLegacy36Fields : Prop :=
  ∀ (c : Ctrl) (s : List Byte), c.getLsbD 8 = true → s.length = 36 →
    let r := decodeSpan c s
    let x := fun i => (s.getD i 0#8).toNat
    r.timestampUs.toNat = x 0 + 2 ^ 8 * x 1 + 2 ^ 16 * x 2 + 2 ^ 24 * x 3 ∧
    r.sequence.toNat = x 4 + 2 ^ 8 * x 5 + 2 ^ 16 * x 6 + 2 ^ 24 * x 7 ∧
    r.validMask.toNat = x 8 ∧ r.statusBits.toNat = x 9 ∧ r.solenoidState.toNat = x 10 + 256 * x 11 ∧
    r.ext32.length = 4 ∧ r.ch16.length = 4 ∧
    (∀ k, k < 4 → (r.ext32.getD k 0#32).toNat =
      x (12 + 4 * k) + 2 ^ 8 * x (12 + 4 * k + 1) + 2 ^ 16 * x (12 + 4 * k + 2) + 2 ^ 24 * x (12 + 4 * k + 3)) ∧
    (∀ k, k < 4 → (r.ch16.getD k 0#16).toNat = x (28 + 2 * k) + 256 * x (28 + 2 * k + 1))

/-- 40_deserializer.md R118, the round-trip law, in both directions and for both layouts. -/
def Obligations.DeserializerRoundTrip : Prop :=
  (∀ n r, r.ch16.length = n → r.ext32 = [] → decodeLive n (encodeLive r) = r) ∧
  (∀ r, r.ext32.length = 4 → r.ch16.length = 4 → decodeLegacy36 (encodeLegacy36 r) = r) ∧
  (∀ n s, s.length = 12 + 2 * n → encodeLive (decodeLive n s) = s) ∧
  (∀ s, s.length = 36 → encodeLegacy36 (decodeLegacy36 s) = s)

/-! ### Invariants -/

/-- The state after reset, with any configuration, meets the invariant and accounts for its bytes. -/
def Obligations.ResetMeetsTheInvariant : Prop :=
  ∀ c, State.Inv { State.reset with ctrl := c } ∧
    (State.reset).bytesIn = accountedBytes { State.reset with ctrl := c }

/-- From every state that meets the invariant every step completes and keeps it: `FB` stays canonical, `FCNT < FS`, `J`
stays below the marker width, and the other clauses of 10_state.md R29 hold between tokens; the block accepts every
token (20_memory.md R72) (log 1). -/
def Obligations.EveryStepCompletesAndKeepsTheInvariant : Prop :=
  ∀ s, s.Inv → ∃ t, step s = .next t ∧ t.Inv

/-- Every instruction completes from every state that meets the invariant, and keeps it. -/
def Obligations.EveryInstructionCompletes : Prop :=
  ∀ i s, s.Inv → ∃ t, exec i s = .next t ∧ t.Inv

/-- 10_state.md R49, the byte equations of both modes, mod 2^32 (70_reset_and_hazards.md R270): every step keeps
`BYTES_IN = FRAMES*(W+FS) + DISCARDED + HELD` live and `BYTES_IN = 4*SESSIONS + FRAMES*FS + DISCARDED + HELD` offline
(log 1). -/
def Obligations.BytesAreConserved : Prop :=
  ∀ s t, s.Inv → s.bytesIn = accountedBytes s → step s = .next t → t.bytesIn = accountedBytes t

/-- 10_state.md R49, the report equations: a step that does not begin again adds to `DISCARDED - GAP` exactly the bytes
its events report, so every discarded byte is reported once or still in `GAP` (log 1). -/
def Obligations.DiscardedBytesAreReported : Prop :=
  ∀ s t, step s = .next t → s.restarts = false →
    ∃ es, t.output = s.output ++ es ∧ t.discarded - t.gap = s.discarded - s.gap + reportedBytes es

/-- 10_state.md R30: the held bytes never exceed `W + FS - 1` live and `3 + FS - 1` offline. -/
def Obligations.HeldBytesAreBounded : Prop :=
  ∀ s, s.Inv →
    (isOffline s.ctrl = false → heldBytes s ≤ markerWidth s.ctrl + frameSize s.ctrl - 1) ∧
    (isOffline s.ctrl = true → heldBytes s ≤ 3 + frameSize s.ctrl - 1)

/-! ### Whole-machine rules -/

/-- 10_state.md R47: a sticky flag and `LOCKED` stay set in every step but a RESTART and a reset, and those clear them
(log 1). -/
def Obligations.FlagsAreSticky : Prop :=
  (∀ s t, step s = .next t → s.restarts = false →
    (s.errCfg = true → t.errCfg = true) ∧ (s.errIllegal = true → t.errIllegal = true) ∧
    (s.errAfterClose = true → t.errAfterClose = true) ∧ (s.nomarker = true → t.nomarker = true) ∧
    (s.locked = true → t.locked = true)) ∧
  (∀ s, s.restarts = true → ∃ t, step s = .next t ∧ t.errCfg = false ∧ t.errIllegal = false ∧
    t.errAfterClose = false ∧ t.nomarker = false ∧ t.locked = false)

/-- 60_exceptions.md R237, 70_reset_and_hazards.md R265: in CLOSED no step but a RESTART or a reset changes anything but
the error flags and the ports (log 1). -/
def Obligations.ClosedIsTerminal : Prop :=
  ∀ s t, s.Inv → s.phase = .closed → step s = .next t → s.restarts = false →
    t = { s with errCfg := t.errCfg, errIllegal := t.errIllegal, errAfterClose := t.errAfterClose
                 input := t.input, output := t.output }

/-- 10_state.md R22, 70_reset_and_hazards.md R264: `CTRL` changes only by the reset input and by a CFG_WRITE taken while
unlocked, which writes its operand (log 1). -/
def Obligations.OnlyCfgWriteChangesCtrl : Prop :=
  ∀ s t, step s = .next t → t.ctrl ≠ s.ctrl →
    (∃ rest, s.input = .reset :: rest) ∨
    (∃ w rest v, s.input = .token w :: rest ∧ decode w = some (.cfgWrite v) ∧ s.locked = false ∧ t.ctrl = v)

/-- 60_exceptions.md R235: the events one instruction can emit, in order. -/
def Obligations.EventsOfOneToken : Prop :=
  ∀ i s t, s.Inv → exec i s = .next t → ∃ es, t.output = s.output ++ es ∧
    match i with
    | .nop => es = []
    | .restart => es = []
    | .read a => ∃ v, es = [.readData a v]
    | .cfgWrite v => es = [] ∨ es = [.error .cfgLocked (encode (.cfgWrite v))]
    | .feed b =>
      if s.phase = .closed then es = [.error .afterClose (encode (.feed b))]
      else if isOffline s.ctrl then
        es = [] ∨ (∃ n r, es = [.frame n r]) ∨ (∃ n f x m k, es = [.sessionEnd n f x, .sessionStart m k]) ∨
          ∃ m k, es = [.sessionStart m k]
      else es = [] ∨ (∃ g, es = [.resync g]) ∨ ∃ r, es = [.frame 0#32 r]
    | .eos =>
      if s.phase = .closed then es = [.error .afterClose (encode .eos)]
      else if isOffline s.ctrl then
        (∃ n f x u, es = [.sessionEnd n f x, .closed u]) ∨
          (∃ m r n f x u, es = [.frame m r, .sessionEnd n f x, .closed u]) ∨ ∃ u, es = [.noMarker, .closed u]
      else ∃ u, es = [.closed u]

/-- 20_memory.md R68: events leave in emission order: whatever the block does later only appends to the trace (log 1,
log 2). -/
def Obligations.EventsAreOnlyAppended : Prop :=
  ∀ n (s t : State), Sys2Proof.core.run n s = .next t → ∃ es, t.output = s.output ++ es

/-- 10_state.md R35, R36, R39, R40: `FRAMES`, `RESYNCS` and `SESSIONS` count the FRAME, RESYNC and SESSION_START events,
and `BYTES_IN` the FEED tokens that are not refused (log 1). -/
def Obligations.CountersCountTheirEvents : Prop :=
  ∀ s t, step s = .next t → s.restarts = false →
    ∃ es, t.output = s.output ++ es ∧
      t.frames = s.frames + countEvents Event.isFrame es ∧
      t.resyncs = s.resyncs + countEvents Event.isResync es ∧
      t.sessions = s.sessions + countEvents Event.isSessionStart es ∧
      t.bytesIn = s.bytesIn + (if s.takesByte then 1 else 0) ∧
      (∀ g, .resync g ∈ es → t.lastGap = g ∧ g ≠ 0#32) ∧
      ((∀ g, .resync g ∉ es) → t.lastGap = s.lastGap)

/-- 40_deserializer.md R115, 30_encoding.md R95: no step emits the reserved error DECODE_FAILURE (log 1). -/
def Obligations.DecodeFailureIsNeverEmitted : Prop :=
  ∀ s t, step s = .next t → ∃ es, t.output = s.output ++ es ∧ ∀ w, .error .decodeFailure w ∉ es

/-- 42_offline_splitter.md R183 and its live counterpart (10_state.md R29, R39): each mode leaves the other mode's
counters and events alone (log 1). -/
def Obligations.ModesDoNotMix : Prop :=
  ∀ s t, step s = .next t → s.restarts = false →
    ∃ es, t.output = s.output ++ es ∧
      (isOffline s.ctrl = true → t.resyncs = s.resyncs ∧ t.lastGap = s.lastGap ∧ ∀ g, .resync g ∉ es) ∧
      (isOffline s.ctrl = false → t.sframes = s.sframes ∧ t.sessions = s.sessions ∧ t.nomarker = s.nomarker ∧
        .noMarker ∉ es ∧ ∀ n x y, .sessionStart n x ∉ es ∧ .sessionEnd n x y ∉ es)

/-- 93_implementation_defined.md I17, 10_state.md R48: the bytes of `FB` from `FCNT` on are never read: two states that
differ in them only step alike, emit the same events, and differ in them only afterwards (log 1). -/
def Obligations.StaleBytesAreNeverRead : Prop :=
  ∀ s s' t, s.fb.wf = true → s'.fb.wf = true → sameButStaleBytes s s' → step s = .next t →
    ∃ t', step s' = .next t' ∧ sameButStaleBytes t t'

/-- 70_reset_and_hazards.md R263, 60_exceptions.md R233: a host that obeys the boot order never causes an ERROR (log 1, log 16).
-/
def Obligations.BootOrderCausesNoError : Prop :=
  ∀ s, s.Inv → s.locked = false → HostStage.configure.obeys s.input = true →
    ∃ t es, Sys2Proof.core.run s.input.length s = .next t ∧ t.output = s.output ++ es ∧
      ∀ e ∈ es, e.isError = false

/-- 70_reset_and_hazards.md R274, 41_live_sync.md R145, 42_offline_splitter.md R180: an EOS that is not refused ends
the run, and its last event is CLOSED. -/
def Obligations.EosEndsTheRun : Prop :=
  ∀ s, s.Inv → s.runEnded = false →
    ∃ t es u, exec .eos s = .next t ∧ t.runEnded = true ∧ t.output = s.output ++ es ++ [.closed u]

/-! ### Whole streams and captures -/

/-- 42_offline_splitter.md R181: a capture fed byte by byte from a fresh state and closed by EOS gives exactly the
events of the batch definition (R171 to R175), in the same order (log 1). -/
def Obligations.OfflineRunIsTheBatchDefinition : Prop :=
  ∀ (c : Ctrl) (C : List Byte) (past : List Event), isOffline c = true →
    ∃ t : State, Sys2Proof.core.run (C.length + 1)
        ({ State.reset with ctrl := c, input := feedInput C ++ [eosInput], output := past } : State) = .next t ∧
      t.output = past ++ captureEvents c C ∧ t.phase = .closed

/-- 41_live_sync.md R146, R147: a stream fed byte by byte from a fresh state and closed by EOS gives exactly the events
of the unbounded buffer that always takes the first occurrence of the marker and never discards on an empty search (log
1). -/
def Obligations.LiveRunTakesTheFirstMarkers : Prop :=
  ∀ (c : Ctrl) (S : List Byte) (past : List Event), isOffline c = false → S.length < 2 ^ 32 →
    ∃ t : State, Sys2Proof.core.run (S.length + 1)
        ({ State.reset with ctrl := c, input := feedInput S ++ [eosInput], output := past } : State) = .next t ∧
      t.output = past ++ streamEvents c S ∧ t.phase = .closed

/-- 41_live_sync.md R147: for every stream in every chunking, the FRAME records of the block are those of the document's
loop as 90_conflicts.md C1 and C2 correct it (log 1, log 12). -/
def Obligations.LiveFramesAreThoseOfTheDocumentLoop : Prop :=
  ∀ (c : Ctrl) (chunks : List (List Byte)), isOffline c = false →
    ∃ t : State, Sys2Proof.core.run chunks.flatten.length
        ({ State.reset with ctrl := c, input := chunks.flatMap feedInput } : State) = .next t ∧
      t.output.filterMap Event.record? = docFrames c [] chunks

/-- 41_live_sync.md R149: a stream with no occurrence of the marker gives no event, and the bytes still held are its
longest suffix that is a proper prefix of the marker (log 1). -/
def Obligations.StreamWithoutMarkerGivesNothing : Prop :=
  ∀ (c : Ctrl) (S : List Byte), isOffline c = false → firstMarker (marker c) S = none →
    ∃ t : State, Sys2Proof.core.run S.length
        ({ State.reset with ctrl := c, input := feedInput S } : State) = .next t ∧
      t.output = [] ∧ t.phase = .hunt ∧ heldBytes t = t.j.toNat ∧
      t.j.toNat = keep (marker c) (S.drop (S.length - (markerWidth c - 1))) ∧ t.j.toNat = keep (marker c) S

/-- 41_live_sync.md R148: one frame preceded by garbage in which no occurrence of the marker starts is decoded once,
after one RESYNC with the garbage's length, in every chunking (log 1). -/
def Obligations.GarbageThenFrameDecodesOnce : Prop :=
  ∀ (c : Ctrl) (g p : List Byte) (chunks : List (List Byte)), isOffline c = false →
    chunks.flatten = g ++ marker c ++ p → p.length = frameSize c →
    firstMarker (marker c) (g ++ marker c) = some g.length → g.length < 2 ^ 32 →
    ∃ t : State, Sys2Proof.core.run chunks.flatten.length
        ({ State.reset with ctrl := c, input := chunks.flatMap feedInput } : State) = .next t ∧
      t.output = (if g = [] then [] else [.resync (BitVec.ofNat 32 g.length)]) ++
        [.frame 0#32 (decodeSpan c p)]
end

