-- ==== Sys2Proof/Laws/Memory.lean ====
section
/-! SUPPORT. The frame buffer: read after write, and every operation keeps the canonical form (20_memory.md R60). -/

namespace Sys2Proof.Machine

@[simp] theorem fsMax_eq : Config.fsMax = 522 := rfl

@[simp] theorem Memory.read_nil (a : Nat) : Memory.read [] a = 0#8 := rfl

theorem Memory.read_cons (x : Nat) (v : Byte) (t : Memory) (a : Nat) :
    Memory.read ((x, v) :: t) a = if x = a then v else Memory.read t a := rfl

/-- The canonical form from a higher bound is one from a lower bound. -/
theorem Memory.wfFrom_mono {lo lo' : Nat} (h : lo' ≤ lo) :
    ∀ {m : Memory}, Memory.wfFrom lo m = true → Memory.wfFrom lo' m = true
  | [], _ => rfl
  | (x, v) :: t, hm => by
    simp only [Memory.wfFrom, Bool.and_eq_true, decide_eq_true_eq] at hm ⊢
    exact ⟨⟨⟨by omega, hm.1.1.2⟩, hm.1.2⟩, hm.2⟩

/-- Below its bound a canonical memory has no cell. -/
theorem Memory.read_below {lo a : Nat} (ha : a < lo) :
    ∀ {m : Memory}, Memory.wfFrom lo m = true → Memory.read m a = 0#8
  | [], _ => rfl
  | (x, v) :: t, hm => by
    simp only [Memory.wfFrom, Bool.and_eq_true, decide_eq_true_eq] at hm
    rw [Memory.read_cons, if_neg (by omega)]
    exact Memory.read_below (by omega) hm.2

/-- A write changes exactly the byte it writes. -/
theorem Memory.read_write_from {lo : Nat} (a : Nat) (b : Byte) (a' : Nat) :
    ∀ {m : Memory}, Memory.wfFrom lo m = true →
      (m.write a b).read a' = if a' = a then b else m.read a'
  | [], _ => by
    unfold Memory.write
    split <;> rename_i hb <;> simp [Memory.read_cons, eq_comm (a := a), hb]
  | (x, v) :: t, hm => by
    simp only [Memory.wfFrom, Bool.and_eq_true, decide_eq_true_eq] at hm
    have below : ∀ y, y ≤ x → Memory.read t y = 0#8 := fun y hy =>
      Memory.read_below (lo := x + 1) (by omega) hm.2
    have ih := Memory.read_write_from a b a' (m := t) hm.2
    unfold Memory.write
    by_cases hx : x = a
    · subst hx
      by_cases hb : b = 0#8 <;> by_cases ha : a' = x
      · subst ha; simp [hb, below]
      · simp [hb, Memory.read_cons, ha, Ne.symm ha]
      · subst ha; simp [hb, Memory.read_cons]
      · simp [hb, Memory.read_cons, ha, Ne.symm ha]
    · by_cases hlt : a < x
      · by_cases hb : b = 0#8 <;> by_cases ha : a' = a
        · subst ha; simp [hb, hlt, hx, Memory.read_cons, below a' (by omega)]
        · simp [hb, hlt, hx, Memory.read_cons, ha]
        · subst ha; simp [hb, hlt, hx, Memory.read_cons]
        · simp [hb, hlt, hx, Memory.read_cons, ha, Ne.symm ha]
      · simp only [if_neg hx, if_neg hlt, Memory.read_cons, ih]
        by_cases hxa : x = a' <;> by_cases ha : a' = a <;> simp_all

/-- A write keeps the canonical form. -/
theorem Memory.write_wf_from {lo a : Nat} (b : Byte) (hlo : lo ≤ a) (ha : a < Config.fsMax) :
    ∀ {m : Memory}, Memory.wfFrom lo m = true → Memory.wfFrom lo (m.write a b) = true
  | [], _ => by
    by_cases hb : b = 0#8 <;> simp_all [Memory.write, Memory.wfFrom]
  | (x, v) :: t, hm => by
    simp only [Memory.wfFrom, Bool.and_eq_true, decide_eq_true_eq] at hm
    obtain ⟨⟨⟨h1, h2⟩, h3⟩, h4⟩ := hm
    unfold Memory.write
    by_cases hx : x = a
    · subst hx
      by_cases hb : b = 0#8
      · simpa [hb] using Memory.wfFrom_mono (by omega) h4
      · simp_all [Memory.wfFrom]
    · by_cases hlt : a < x
      · by_cases hb : b = 0#8
        · simp_all [Memory.wfFrom]
        · simp_all [Memory.wfFrom]
      · simp only [if_neg hx, if_neg hlt, Memory.wfFrom, Bool.and_eq_true, decide_eq_true_eq]
        exact ⟨⟨⟨h1, h2⟩, h3⟩, Memory.write_wf_from b (by omega) ha h4⟩

/-- Read after write (20_memory.md R60). -/
theorem Memory.read_write {m : Memory} (hm : m.wf = true) (a : Nat) (b : Byte) (a' : Nat) :
    (m.write a b).read a' = if a' = a then b else m.read a' :=
  Memory.read_write_from a b a' hm

/-- A write inside the buffer keeps the canonical form. -/
theorem Memory.write_wf {m : Memory} (hm : m.wf = true) {a : Nat} (ha : a < Config.fsMax) (b : Byte) :
    (m.write a b).wf = true :=
  Memory.write_wf_from b (Nat.zero_le a) ha hm

/-- Memory after reset and RESTART is canonical. -/
@[simp] theorem Memory.nil_wf : Memory.wf [] = true := rfl

@[simp] theorem Memory.span_length (m : Memory) (a n : Nat) : (m.span a n).length = n := by
  simp [Memory.span]

@[simp] theorem Memory.span_zero (m : Memory) (a : Nat) : m.span a 0 = [] := rfl

theorem Memory.span_succ (m : Memory) (a n : Nat) : m.span a (n + 1) = m.span a n ++ [m.read (a + n)] := by
  simp [Memory.span, List.range_succ]

/-- A span depends only on its own bytes. -/
theorem Memory.span_congr {m m' : Memory} {a n : Nat} (h : ∀ i, i < n → m'.read (a + i) = m.read (a + i)) :
    m'.span a n = m.span a n := by
  simp only [Memory.span, List.map_inj_left, List.mem_range]
  exact h

/-- Appending the written byte at the end of a span. -/
theorem Memory.span_write_end {m : Memory} (hm : m.wf = true) (n : Nat) (b : Byte) :
    (m.write n b).span 0 (n + 1) = m.span 0 n ++ [b] := by
  rw [Memory.span_succ, Memory.read_write hm]
  rw [Memory.span_congr (m := m) (fun i hi => by rw [Memory.read_write hm, if_neg (by omega)])]
  simp

end Sys2Proof.Machine
end

