-- ==== Sys2Proof/Laws/Encoding.lean ====
section
/-! SUPPORT. The widths of 00_scope.md R8 as numerals, the rows as the words of 30_encoding.md R86 to R91, and the low
field of a token: an operand in the bits a row's mask leaves free (R86 to R92). -/

namespace Sys2Proof

/-! ### Widths -/

@[simp] theorem tokenWidth_eq : Config.tokenWidth = 32 := rfl

@[simp] theorem nchWidth_eq : Config.nchWidth = 8 := rfl

@[simp] theorem counterWidth_eq : Config.counterWidth = 32 := rfl

@[simp] theorem regAddrWidth_eq : Config.regAddrWidth = 8 := rfl

@[simp] theorem ctrlWidth_eq : ctrlWidth = 11 := rfl

@[simp] theorem layoutBit_eq : layoutBit = 8 := rfl

@[simp] theorem markerBit_eq : markerBit = 9 := rfl

@[simp] theorem modeBit_eq : modeBit = 10 := rfl

theorem wfWith_cfgWrite (off : Bool) (v : Ctrl) : (Instr.cfgWrite v).wfWith off = (off || !v.getLsbD 10) := rfl

/-! ### The rows written out -/

theorem rowOf_nop : rowOf .nop = ⟨.nop, 0x00000000#32, 0xFFFFFFFF#32⟩ := by decide

theorem rowOf_feed : rowOf .feed = ⟨.feed, 0x10000000#32, 0xFFFFFF00#32⟩ := by decide

theorem rowOf_eos : rowOf .eos = ⟨.eos, 0x20000000#32, 0xFFFFFFFF#32⟩ := by decide

theorem rowOf_cfgWrite : rowOf .cfgWrite = ⟨.cfgWrite, 0x30000000#32, 0xFFFFF800#32⟩ := by decide

theorem rowOf_restart : rowOf .restart = ⟨.restart, 0x40000000#32, 0xFFFFFFFF#32⟩ := by decide

theorem rowOf_read : rowOf .read = ⟨.read, 0x50000000#32, 0xFFFFFF00#32⟩ := by decide

theorem encode_feed (b : Byte) : encode (.feed b) = 0x10000000#32 ||| b.setWidth 32 := by
  simp only [encode, Instr.op, rowOf_feed, operandBits]

theorem encode_cfgWrite (v : Ctrl) : encode (.cfgWrite v) = 0x30000000#32 ||| v.setWidth 32 := by
  simp only [encode, Instr.op, rowOf_cfgWrite, operandBits]

theorem encode_read (a : RegAddr) : encode (.read a) = 0x50000000#32 ||| a.setWidth 32 := by
  simp only [encode, Instr.op, rowOf_read, operandBits]

theorem encode_nop : encode .nop = 0x00000000#32 := by decide

theorem encode_eos : encode .eos = 0x20000000#32 := by decide

theorem encode_restart : encode .restart = 0x40000000#32 := by decide

/-! ### Operands -/

/-- An operand in bits a mask does not look at leaves the masked pattern as it is. -/
theorem low_field_masked {w : Nat} (p m : Token) (b : BitVec w) (hm : ∀ i, i < w → m.getLsbD i = false) :
    (p ||| b.setWidth Config.tokenWidth) &&& m = p &&& m := by
  ext i hi
  have := hm i
  simp only [BitVec.getLsbD_eq_getElem hi] at this
  by_cases h : i < w
  · simp [this h]
  · simp [BitVec.getElem_setWidth, BitVec.getLsbD_of_ge b i (by omega)]

/-- An operand in bits the pattern leaves 0 reads back. -/
theorem low_field_value {w : Nat} (hw : w ≤ Config.tokenWidth) (p : Token) (b : BitVec w)
    (hp : ∀ i, i < w → p.getLsbD i = false) :
    (p ||| b.setWidth Config.tokenWidth).extractLsb' 0 w = b := by
  have hw : w ≤ 32 := hw
  ext i hi
  have := hp i hi
  simp [this]
  rw [BitVec.getLsbD_eq_getElem hi]
  simp
  omega

end Sys2Proof
end

