-- ==== Sys2Proof/Laws/State.lean ====
section
/-! SUPPORT. The fields of State after each shared update, one lemma per field, so that no proof unfolds an update. -/

namespace Sys2Proof.Machine

/-! ### `emit` -/

@[simp] theorem emit_ctrl (e : Event) (s : State) : (emit e s).ctrl = s.ctrl := rfl
@[simp] theorem emit_phase (e : Event) (s : State) : (emit e s).phase = s.phase := rfl
@[simp] theorem emit_j (e : Event) (s : State) : (emit e s).j = s.j := rfl
@[simp] theorem emit_fb (e : Event) (s : State) : (emit e s).fb = s.fb := rfl
@[simp] theorem emit_fcnt (e : Event) (s : State) : (emit e s).fcnt = s.fcnt := rfl
@[simp] theorem emit_gap (e : Event) (s : State) : (emit e s).gap = s.gap := rfl
@[simp] theorem emit_sframes (e : Event) (s : State) : (emit e s).sframes = s.sframes := rfl
@[simp] theorem emit_locked (e : Event) (s : State) : (emit e s).locked = s.locked := rfl
@[simp] theorem emit_errCfg (e : Event) (s : State) : (emit e s).errCfg = s.errCfg := rfl
@[simp] theorem emit_errIllegal (e : Event) (s : State) : (emit e s).errIllegal = s.errIllegal := rfl
@[simp] theorem emit_errAfterClose (e : Event) (s : State) : (emit e s).errAfterClose = s.errAfterClose := rfl
@[simp] theorem emit_nomarker (e : Event) (s : State) : (emit e s).nomarker = s.nomarker := rfl
@[simp] theorem emit_frames (e : Event) (s : State) : (emit e s).frames = s.frames := rfl
@[simp] theorem emit_resyncs (e : Event) (s : State) : (emit e s).resyncs = s.resyncs := rfl
@[simp] theorem emit_discarded (e : Event) (s : State) : (emit e s).discarded = s.discarded := rfl
@[simp] theorem emit_lastGap (e : Event) (s : State) : (emit e s).lastGap = s.lastGap := rfl
@[simp] theorem emit_sessions (e : Event) (s : State) : (emit e s).sessions = s.sessions := rfl
@[simp] theorem emit_bytesIn (e : Event) (s : State) : (emit e s).bytesIn = s.bytesIn := rfl
@[simp] theorem emit_shortspans (e : Event) (s : State) : (emit e s).shortspans = s.shortspans := rfl
@[simp] theorem emit_input (e : Event) (s : State) : (emit e s).input = s.input := rfl
@[simp] theorem emit_output (e : Event) (s : State) : (emit e s).output = s.output ++ [e] := rfl

/-! ### `raiseError` (60_exceptions.md R231) -/

@[simp] theorem raiseError_ctrl (e : ErrorKind) (t : Token) (s : State) : (raiseError e t s).ctrl = s.ctrl := by
  cases e <;> rfl
@[simp] theorem raiseError_phase (e : ErrorKind) (t : Token) (s : State) : (raiseError e t s).phase = s.phase := by
  cases e <;> rfl
@[simp] theorem raiseError_j (e : ErrorKind) (t : Token) (s : State) : (raiseError e t s).j = s.j := by
  cases e <;> rfl
@[simp] theorem raiseError_fb (e : ErrorKind) (t : Token) (s : State) : (raiseError e t s).fb = s.fb := by
  cases e <;> rfl
@[simp] theorem raiseError_fcnt (e : ErrorKind) (t : Token) (s : State) : (raiseError e t s).fcnt = s.fcnt := by
  cases e <;> rfl
@[simp] theorem raiseError_gap (e : ErrorKind) (t : Token) (s : State) : (raiseError e t s).gap = s.gap := by
  cases e <;> rfl
@[simp] theorem raiseError_sframes (e : ErrorKind) (t : Token) (s : State) : (raiseError e t s).sframes = s.sframes := by
  cases e <;> rfl
@[simp] theorem raiseError_locked (e : ErrorKind) (t : Token) (s : State) : (raiseError e t s).locked = s.locked := by
  cases e <;> rfl
@[simp] theorem raiseError_errCfg (e : ErrorKind) (t : Token) (s : State) :
    (raiseError e t s).errCfg = (s.errCfg || e == .cfgLocked) := by cases e <;> simp [raiseError, setErrorFlag]
@[simp] theorem raiseError_errIllegal (e : ErrorKind) (t : Token) (s : State) :
    (raiseError e t s).errIllegal = (s.errIllegal || e == .illegalToken) := by cases e <;> simp [raiseError, setErrorFlag]
@[simp] theorem raiseError_errAfterClose (e : ErrorKind) (t : Token) (s : State) :
    (raiseError e t s).errAfterClose = (s.errAfterClose || e == .afterClose) := by cases e <;> simp [raiseError, setErrorFlag]
@[simp] theorem raiseError_nomarker (e : ErrorKind) (t : Token) (s : State) : (raiseError e t s).nomarker = s.nomarker := by
  cases e <;> rfl
@[simp] theorem raiseError_frames (e : ErrorKind) (t : Token) (s : State) : (raiseError e t s).frames = s.frames := by
  cases e <;> rfl
@[simp] theorem raiseError_resyncs (e : ErrorKind) (t : Token) (s : State) : (raiseError e t s).resyncs = s.resyncs := by
  cases e <;> rfl
@[simp] theorem raiseError_discarded (e : ErrorKind) (t : Token) (s : State) : (raiseError e t s).discarded = s.discarded := by
  cases e <;> rfl
@[simp] theorem raiseError_lastGap (e : ErrorKind) (t : Token) (s : State) : (raiseError e t s).lastGap = s.lastGap := by
  cases e <;> rfl
@[simp] theorem raiseError_sessions (e : ErrorKind) (t : Token) (s : State) : (raiseError e t s).sessions = s.sessions := by
  cases e <;> rfl
@[simp] theorem raiseError_bytesIn (e : ErrorKind) (t : Token) (s : State) : (raiseError e t s).bytesIn = s.bytesIn := by
  cases e <;> rfl
@[simp] theorem raiseError_shortspans (e : ErrorKind) (t : Token) (s : State) : (raiseError e t s).shortspans = s.shortspans := by
  cases e <;> rfl
@[simp] theorem raiseError_input (e : ErrorKind) (t : Token) (s : State) : (raiseError e t s).input = s.input := by
  cases e <;> rfl
@[simp] theorem raiseError_output (e : ErrorKind) (t : Token) (s : State) :
    (raiseError e t s).output = s.output ++ [.error e t] := by cases e <;> rfl

/-! ### Reset and RESTART (10_state.md R48) -/

@[simp] theorem resetElements_ctrl (s : State) : (resetElements s).ctrl = 0#11 := rfl
@[simp] theorem resetElements_phase (s : State) : (resetElements s).phase = .hunt := rfl
@[simp] theorem resetElements_j (s : State) : (resetElements s).j = 0#2 := rfl
@[simp] theorem resetElements_fb (s : State) : (resetElements s).fb = [] := rfl
@[simp] theorem resetElements_fcnt (s : State) : (resetElements s).fcnt = 0#10 := rfl
@[simp] theorem resetElements_gap (s : State) : (resetElements s).gap = 0#32 := rfl
@[simp] theorem resetElements_sframes (s : State) : (resetElements s).sframes = 0#32 := rfl
@[simp] theorem resetElements_locked (s : State) : (resetElements s).locked = false := rfl
@[simp] theorem resetElements_errCfg (s : State) : (resetElements s).errCfg = false := rfl
@[simp] theorem resetElements_errIllegal (s : State) : (resetElements s).errIllegal = false := rfl
@[simp] theorem resetElements_errAfterClose (s : State) : (resetElements s).errAfterClose = false := rfl
@[simp] theorem resetElements_nomarker (s : State) : (resetElements s).nomarker = false := rfl
@[simp] theorem resetElements_frames (s : State) : (resetElements s).frames = 0#32 := rfl
@[simp] theorem resetElements_resyncs (s : State) : (resetElements s).resyncs = 0#32 := rfl
@[simp] theorem resetElements_discarded (s : State) : (resetElements s).discarded = 0#32 := rfl
@[simp] theorem resetElements_lastGap (s : State) : (resetElements s).lastGap = 0#32 := rfl
@[simp] theorem resetElements_sessions (s : State) : (resetElements s).sessions = 0#32 := rfl
@[simp] theorem resetElements_bytesIn (s : State) : (resetElements s).bytesIn = 0#32 := rfl
@[simp] theorem resetElements_shortspans (s : State) : (resetElements s).shortspans = 0#32 := rfl
@[simp] theorem resetElements_input (s : State) : (resetElements s).input = s.input := rfl
@[simp] theorem resetElements_output (s : State) : (resetElements s).output = s.output := rfl
@[simp] theorem restartElements_ctrl (s : State) : (restartElements s).ctrl = s.ctrl := rfl
@[simp] theorem restartElements_phase (s : State) : (restartElements s).phase = .hunt := rfl
@[simp] theorem restartElements_j (s : State) : (restartElements s).j = 0#2 := rfl
@[simp] theorem restartElements_fb (s : State) : (restartElements s).fb = [] := rfl
@[simp] theorem restartElements_fcnt (s : State) : (restartElements s).fcnt = 0#10 := rfl
@[simp] theorem restartElements_gap (s : State) : (restartElements s).gap = 0#32 := rfl
@[simp] theorem restartElements_sframes (s : State) : (restartElements s).sframes = 0#32 := rfl
@[simp] theorem restartElements_locked (s : State) : (restartElements s).locked = false := rfl
@[simp] theorem restartElements_errCfg (s : State) : (restartElements s).errCfg = false := rfl
@[simp] theorem restartElements_errIllegal (s : State) : (restartElements s).errIllegal = false := rfl
@[simp] theorem restartElements_errAfterClose (s : State) : (restartElements s).errAfterClose = false := rfl
@[simp] theorem restartElements_nomarker (s : State) : (restartElements s).nomarker = false := rfl
@[simp] theorem restartElements_frames (s : State) : (restartElements s).frames = 0#32 := rfl
@[simp] theorem restartElements_resyncs (s : State) : (restartElements s).resyncs = 0#32 := rfl
@[simp] theorem restartElements_discarded (s : State) : (restartElements s).discarded = 0#32 := rfl
@[simp] theorem restartElements_lastGap (s : State) : (restartElements s).lastGap = 0#32 := rfl
@[simp] theorem restartElements_sessions (s : State) : (restartElements s).sessions = 0#32 := rfl
@[simp] theorem restartElements_bytesIn (s : State) : (restartElements s).bytesIn = 0#32 := rfl
@[simp] theorem restartElements_shortspans (s : State) : (restartElements s).shortspans = 0#32 := rfl
@[simp] theorem restartElements_input (s : State) : (restartElements s).input = s.input := rfl
@[simp] theorem restartElements_output (s : State) : (restartElements s).output = s.output := rfl

end Sys2Proof.Machine
end

