-- ==== Sys2Proof/Laws/Ops.lean ====
section
/-! SUPPORT. What each shared operation does, one lemma each, so that callers cite it and never unfold it. -/

namespace Sys2Proof.Machine

@[simp] theorem hasOffline_eq : Config.hasOffline = true := rfl

@[simp] theorem sessionByte_eq : Config.sessionByte = 0xA5#8 := rfl

@[simp] theorem sessionWidth_eq : Config.sessionWidth = 4 := rfl

/-- The session marker is one byte repeated, which is what the byte-serial detector counts. -/
theorem sessionMarker_eq : Config.sessionMarker = List.replicate Config.sessionWidth Config.sessionByte := rfl

/-! ### Values derived from `CTRL` (10_state.md R28) -/

theorem ctrlNch_toNat (c : Ctrl) : (ctrlNch c).toNat = c.toNat % 256 := by
  simp [ctrlNch, BitVec.extractLsb'_toNat]

theorem frameSize_ge (c : Ctrl) : 12 ≤ frameSize c := by
  unfold frameSize Config.fsLegacy Config.fsLive
  split <;> omega

theorem frameSize_le (c : Ctrl) : frameSize c ≤ 522 := by
  unfold frameSize Config.fsLegacy Config.fsLive
  have : (ctrlNch c).toNat < 256 := (ctrlNch c).isLt
  split <;> omega

theorem markerWidth_live {c : Ctrl} (h : ctrlMarker c = false) : markerWidth c = 2 := by
  simp [markerWidth, marker, h, Config.markerLive]

theorem markerWidth_legacy {c : Ctrl} (h : ctrlMarker c = true) : markerWidth c = 4 := by
  simp [markerWidth, marker, h, Config.markerLegacy]

theorem marker_live {c : Ctrl} (h : ctrlMarker c = false) : marker c = [0xAA#8, 0x55#8] := by
  simp [marker, h, Config.markerLive]

theorem marker_legacy {c : Ctrl} (h : ctrlMarker c = true) : marker c = [0xA5#8, 0xA5#8, 0xA5#8, 0xA5#8] := by
  simp [marker, h, Config.markerLegacy]

@[simp] theorem marker_length (c : Ctrl) : (marker c).length = markerWidth c := rfl

theorem markerWidth_cases (c : Ctrl) : markerWidth c = 2 ∨ markerWidth c = 4 := by
  cases h : ctrlMarker c
  · exact .inl (markerWidth_live h)
  · exact .inr (markerWidth_legacy h)

/-! ### The frame buffer -/

theorem fcnt_succ {n : BitVec 10} {m : Nat} (h : n.toNat < m) (hm : m ≤ 522) : (n + 1).toNat = n.toNat + 1 := by
  rw [BitVec.toNat_add]
  simp
  omega

theorem memWrite_ok {a : Nat} (b : Byte) (s : State) (h : a < 522) :
    memWrite a b s = .ok { s with fb := s.fb.write a b } := by
  simp [memWrite, h]

/-- The deserializer's read of a whole frame never leaves the buffer (40_deserializer.md R112). -/
theorem memRead_frame (c : Ctrl) (s : State) :
    memRead 0 (frameSize c) s = .ok (s.fb.span 0 (frameSize c)) := by
  have := frameSize_le c
  simp [memRead, this]

theorem storeByte_ok (b : Byte) (s : State) (h : s.fcnt.toNat < 522) :
    storeByte b s = .ok { s with fb := s.fb.write s.fcnt.toNat b, fcnt := s.fcnt + 1 } := by
  simp [storeByte, memWrite_ok b s h, Except.map]

/-- FEED in COLLECT, from a canonical buffer with `FCNT < FS` (41_live_sync.md R144). -/
theorem feedLiveCollect_ok (b : Byte) {s : State} (hm : s.fb.wf = true) (h : s.fcnt.toNat < frameSize s.ctrl) :
    feedLiveCollect b s = .ok (
      if s.fcnt.toNat + 1 = frameSize s.ctrl then
        { s with
          fb := s.fb.write s.fcnt.toNat b
          frames := s.frames + 1
          output := s.output ++ [.frame 0#32 (decodeSpan s.ctrl (s.fb.span 0 s.fcnt.toNat ++ [b]))]
          phase := .hunt, j := 0#2, fcnt := 0#10 }
      else { s with fb := s.fb.write s.fcnt.toNat b, fcnt := s.fcnt + 1 }) := by
  have hle := frameSize_le s.ctrl
  rw [feedLiveCollect, storeByte_ok b s (by omega)]
  simp only [Except.bind, fcnt_succ h hle, memRead_frame]
  split
  · next heq =>
    simp only [Except.map, ← heq, Memory.span_write_end hm]
    rfl
  · rfl

/-! ### The offline detector -/

/-- COMMIT in PREAMBLE (42_offline_splitter.md R178). -/
theorem commit_preamble (x : Byte) {s : State} (h : s.phase = .hunt) :
    commit x s = .ok { s with gap := s.gap + 1, discarded := s.discarded + 1 } := by
  simp [commit, h]

/-- COMMIT in SESSION, from a canonical buffer with `FCNT < FS` (42_offline_splitter.md R178). -/
theorem commit_session (x : Byte) {s : State} (hp : s.phase ≠ .hunt) (hm : s.fb.wf = true)
    (h : s.fcnt.toNat < frameSize s.ctrl) :
    commit x s = .ok (
      if s.fcnt.toNat + 1 = frameSize s.ctrl then
        { s with
          fb := s.fb.write s.fcnt.toNat x
          frames := s.frames + 1, sframes := s.sframes + 1
          output := s.output ++ [.frame (s.sessions - 1) (decodeSpan s.ctrl (s.fb.span 0 s.fcnt.toNat ++ [x]))]
          fcnt := 0#10 }
      else { s with fb := s.fb.write s.fcnt.toNat x, fcnt := s.fcnt + 1 }) := by
  have hle := frameSize_le s.ctrl
  rw [commit, if_neg hp, storeByte_ok x s (by omega)]
  simp only [Except.bind, fcnt_succ h hle, memRead_frame]
  split
  · next heq =>
    simp only [Except.map, ← heq, Memory.span_write_end hm]
    rfl
  · rfl

@[simp] theorem commitAll_nil (s : State) : commitAll [] s = .ok s := rfl

theorem commitAll_cons (x : Byte) (t : List Byte) (s : State) :
    commitAll (x :: t) s = (commit x s).bind (commitAll t) := rfl

/-- COMMIT of several bytes in PREAMBLE: all are discarded. -/
theorem commitAll_preamble (bs : List Byte) : ∀ {s : State}, s.phase = .hunt →
    commitAll bs s = .ok { s with
      gap := s.gap + BitVec.ofNat 32 bs.length, discarded := s.discarded + BitVec.ofNat 32 bs.length } := by
  induction bs with
  | nil => intro s _; simp
  | cons x t ih =>
    intro s h
    rw [commitAll_cons, commit_preamble x h, Except.bind, ih (by simpa using h)]
    have e : ∀ a : BitVec 32, a + 1 + BitVec.ofNat 32 t.length = a + BitVec.ofNat 32 (t.length + 1) := by
      intro a
      rw [BitVec.add_assoc, Nat.add_comm t.length, BitVec.ofNat_add]
      rfl
    simp only [e, List.length_cons]

@[simp] theorem finish_ok (s : State) : finish (.ok s) = .next s := rfl

@[simp] theorem finish_eq_next {r : Except Fault State} {t : State} : finish r = .next t ↔ r = .ok t := by
  cases r <;> simp [finish]

end Sys2Proof.Machine
end

