-- ==== Sys2Proof/Laws/Capture.lean ====
section
/-! SUPPORT. The batch definition piece by piece: the frames of a region from its front, and the marker scan over bytes
where no marker begins (42_offline_splitter.md R171, R173). -/

namespace Sys2Proof.Machine

theorem regionFrames_short {c : Ctrl} {X : List Byte} (h : X.length < frameSize c) : regionFrames c X = [] := by
  rw [regionFrames, Nat.div_eq_of_lt h]
  rfl

theorem regionFrames_cons {c : Ctrl} {X : List Byte} (h : frameSize c ≤ X.length) :
    regionFrames c X = decodeSpan c (X.take (frameSize c)) :: regionFrames c (X.drop (frameSize c)) := by
  have h12 := frameSize_ge c
  rw [regionFrames, regionFrames, List.length_drop, Nat.div_eq_sub_div (by omega) h, List.range_succ_eq_map,
    List.map_cons, List.map_map]
  congr 1
  · simp [slice]
  · apply List.map_congr_left
    intro k _
    simp only [Function.comp, slice, List.drop_drop]
    congr 3
    rw [Nat.succ_mul]
    omega

theorem offsetsFrom_end {C : List Byte} {i : Nat} (fuel : Nat) (h : C.length < i + 4) : offsetsFrom C fuel i = [] := by
  cases fuel with
  | zero => rfl
  | succ f => rw [offsetsFrom, if_neg (by rw [sessionWidth_eq]; omega)]

theorem offsetsFrom_skip {C : List Byte} : ∀ (d : Nat) {i fuel : Nat}, d ≤ fuel →
    (∀ k, k < d → i + k + 4 ≤ C.length ∧ slice C (i + k) 4 ≠ List.replicate 4 0xA5#8) →
    offsetsFrom C fuel i = offsetsFrom C (fuel - d) (i + d) := by
  intro d
  induction d with
  | zero => intro i fuel _ _; simp
  | succ d ih =>
    intro i fuel hf h
    cases fuel with
    | zero => omega
    | succ fuel =>
      obtain ⟨h4, h0⟩ := h 0 (by omega)
      rw [offsetsFrom, if_pos (show i + Config.sessionWidth ≤ C.length by rw [sessionWidth_eq]; omega),
        if_neg (show ¬slice C i Config.sessionWidth = Config.sessionMarker from h0),
        ih (by omega) (fun k hk => by
          have := h (k + 1) (by omega)
          rwa [show i + (k + 1) = i + 1 + k by omega] at this)]
      rw [show fuel + 1 - (d + 1) = fuel - d by omega, show i + 1 + d = i + (d + 1) by omega]

end Sys2Proof.Machine
end

