-- ==== Sys2Proof/Laws/Control.lean ====
section
/-! SUPPORT. Dispatch: which operation FEED and EOS run after their prologue (43_control_ops.md R206, R207), and what
one step is, so that no proof unfolds `exec` or `step` again. -/

namespace Sys2Proof.Machine

/-- The state after FEED's prologue (R206). -/
abbrev State.fed (s : State) : State := { s with locked := true, bytesIn := s.bytesIn + 1 }

/-- The state after EOS's prologue (R207). -/
abbrev State.ended (s : State) : State := { s with locked := true }

theorem exec_feed_closed (b : Byte) {s : State} (h : s.phase = .closed) :
    exec (.feed b) s = .next (raiseError .afterClose (encode (.feed b)) s) := by
  rw [exec, execFeed, if_pos h]

theorem exec_feed_open (b : Byte) {s : State} (h : s.phase ≠ .closed) :
    exec (.feed b) s = finish (feedUnit b s.fed) := by
  rw [exec, execFeed, if_neg h]

theorem exec_eos_closed {s : State} (h : s.phase = .closed) :
    exec .eos s = .next (raiseError .afterClose (encode .eos) s) := by
  rw [exec, execEos, if_pos h]

theorem exec_eos_open {s : State} (h : s.phase ≠ .closed) : exec .eos s = finish (eosUnit s.ended) := by
  rw [exec, execEos, if_neg h]

theorem feedUnit_hunt (b : Byte) {s : State} (ho : isOffline s.ctrl = false) (hp : s.phase = .hunt) :
    feedUnit b s = .ok (feedLiveHunt b s) := by
  simp [feedUnit, ho, hp]

theorem feedUnit_collect (b : Byte) {s : State} (ho : isOffline s.ctrl = false) (hp : s.phase ≠ .hunt) :
    feedUnit b s = feedLiveCollect b s := by
  simp [feedUnit, ho, hp]

theorem feedUnit_a5 {s : State} (ho : isOffline s.ctrl = true) : feedUnit 0xA5#8 s = .ok (feedOfflineA5 s) := by
  simp [feedUnit, ho]

theorem feedUnit_other {b : Byte} {s : State} (ho : isOffline s.ctrl = true) (hb : b ≠ 0xA5#8) :
    feedUnit b s = feedOfflineOther b s := by
  simp [feedUnit, ho, hb]

theorem eosUnit_live {s : State} (ho : isOffline s.ctrl = false) : eosUnit s = .ok (eosLive s) := by
  simp [eosUnit, ho]

theorem eosUnit_offline {s : State} (ho : isOffline s.ctrl = true) : eosUnit s = eosOffline s := by
  simp [eosUnit, ho]

theorem step_idle {s : State} (h : s.input = []) : step s = .next s := by
  simp [step, h]

theorem step_reset {s : State} {rest : List Input} (h : s.input = .reset :: rest) :
    step s = .next (resetElements { s with input := rest }) := by
  simp [step, h]

theorem step_token {s : State} {t : Token} {rest : List Input} (h : s.input = .token t :: rest) :
    step s = runToken t { s with input := rest } := by
  simp [step, h]

end Sys2Proof.Machine
end

