-- ==== Sys2Proof/Laws/Offline.lean ====
section
/-! SUPPORT. COMMIT of several bytes in a session (42_offline_splitter.md R177, R178, R180): bytes stored in a row, and
a frame completed by them. -/

namespace Sys2Proof.Machine

/-- Several bytes written in a row from an address on. -/
def Memory.writeAll (m : Memory) (a : Nat) : List Byte → Memory
  | [] => m
  | x :: t => Memory.writeAll (m.write a x) (a + 1) t

theorem Memory.writeAll_wf {bs : List Byte} : ∀ {m : Memory} {a : Nat}, m.wf = true → a + bs.length ≤ 522 →
    (m.writeAll a bs).wf = true := by
  induction bs with
  | nil => exact fun h _ => h
  | cons x t ih =>
    intro m a h ha
    rw [List.length_cons] at ha
    exact ih (Memory.write_wf h (by simp; omega) x) (by omega)

theorem Memory.read_writeAll {bs : List Byte} (y : Nat) : ∀ {m : Memory} {a : Nat}, m.wf = true →
    a + bs.length ≤ 522 →
    (m.writeAll a bs).read y = if a ≤ y ∧ y < a + bs.length then bs.getD (y - a) 0#8 else m.read y := by
  induction bs with
  | nil => intro m a _ _; rw [if_neg (by rw [List.length_nil]; omega)]; rfl
  | cons x t ih =>
    intro m a h ha
    rw [List.length_cons] at ha ⊢
    rw [Memory.writeAll, ih (Memory.write_wf h (by simp; omega) x) (by omega), Memory.read_write h]
    by_cases hy : y = a
    · subst hy
      rw [if_neg (by omega), if_pos rfl, if_pos (by omega)]
      simp
    · by_cases hin : a + 1 ≤ y ∧ y < a + 1 + t.length
      · rw [if_pos hin, if_pos (by omega), show y - a = (y - (a + 1)) + 1 by omega]
        simp
      · rw [if_neg hin, if_neg hy, if_neg (by omega)]

theorem Memory.span_writeAll {bs : List Byte} : ∀ {m : Memory} {n : Nat}, m.wf = true → n + bs.length ≤ 522 →
    (m.writeAll n bs).span 0 (n + bs.length) = m.span 0 n ++ bs := by
  induction bs with
  | nil => intro m n _ _; simp [Memory.writeAll]
  | cons x t ih =>
    intro m n h hn
    rw [List.length_cons] at hn
    rw [Memory.writeAll, List.length_cons, show n + (t.length + 1) = n + 1 + t.length by omega,
      ih (Memory.write_wf h (by simp; omega) x) (by omega), Memory.span_write_end h]
    simp

theorem Memory.writeAll_append (bs cs : List Byte) : ∀ (m : Memory) (a : Nat),
    m.writeAll a (bs ++ cs) = (m.writeAll a bs).writeAll (a + bs.length) cs := by
  induction bs with
  | nil => intro m a; rfl
  | cons x t ih =>
    intro m a
    simp only [List.cons_append, Memory.writeAll, ih, List.length_cons]
    congr 1
    omega

theorem commitAll_append (bs cs : List Byte) : ∀ s : State,
    commitAll (bs ++ cs) s = (commitAll bs s).bind (commitAll cs) := by
  induction bs with
  | nil => intro s; rfl
  | cons x t ih =>
    intro s
    rw [List.cons_append, commitAll_cons, commitAll_cons]
    cases commit x s with
    | error f => rfl
    | ok s1 => exact ih s1

theorem ofNat_fcnt_add (n : BitVec 10) (k : Nat) : n + BitVec.ofNat 10 (k + 1) = n + 1 + BitVec.ofNat 10 k := by
  rw [Nat.add_comm, BitVec.ofNat_add, ← BitVec.add_assoc]
  rfl

/-- Bytes that do not complete a frame are stored at `FCNT` and on. -/
theorem commitAll_store {bs : List Byte} : ∀ {s : State}, s.phase ≠ .hunt → s.fb.wf = true →
    s.fcnt.toNat + bs.length < frameSize s.ctrl →
    commitAll bs s = .ok { s with
      fb := s.fb.writeAll s.fcnt.toNat bs, fcnt := s.fcnt + BitVec.ofNat 10 bs.length } := by
  induction bs with
  | nil => intro s _ _ _; simp [Memory.writeAll]
  | cons x t ih =>
    intro s hp hm h
    rw [List.length_cons] at h
    have hle := frameSize_le s.ctrl
    have hs : (s.fcnt + 1).toNat = s.fcnt.toNat + 1 := fcnt_succ (m := 522) (by omega) (by omega)
    rw [commitAll_cons, commit_session x hp hm (by omega), if_neg (by omega)]
    simp only [Except.bind]
    rw [ih (s := { s with fb := _, fcnt := s.fcnt + 1 }) hp (Memory.write_wf hm (by simp; omega) x)
      (by simp only [hs]; omega)]
    simp only [hs, Memory.writeAll, List.length_cons, ofNat_fcnt_add]

/-- Bytes that complete a frame exactly: one FRAME, and `FCNT` is 0 again. -/
theorem commitAll_frame {bs : List Byte} {s : State} (hp : s.phase ≠ .hunt) (hm : s.fb.wf = true) (hne : bs ≠ [])
    (h : s.fcnt.toNat + bs.length = frameSize s.ctrl) :
    commitAll bs s = .ok { s with
      fb := s.fb.writeAll s.fcnt.toNat bs
      frames := s.frames + 1, sframes := s.sframes + 1
      output := s.output ++ [.frame (s.sessions - 1) (decodeSpan s.ctrl (s.fb.span 0 s.fcnt.toNat ++ bs))]
      fcnt := 0#10 } := by
  obtain ⟨cs, x, rfl⟩ : ∃ cs x, bs = cs ++ [x] := ⟨bs.dropLast, bs.getLast hne, (bs.dropLast_append_getLast hne).symm⟩
  have hle := frameSize_le s.ctrl
  simp only [List.length_append, List.length_singleton] at h
  have hn : (s.fcnt + BitVec.ofNat 10 cs.length).toNat = s.fcnt.toNat + cs.length := by
    rw [BitVec.toNat_add, BitVec.toNat_ofNat]
    omega
  have hwf : (s.fb.writeAll s.fcnt.toNat cs).wf = true := Memory.writeAll_wf hm (by omega)
  rw [commitAll_append, commitAll_store hp hm (by omega)]
  simp only [Except.bind, commitAll_cons]
  rw [commit_session x (s := { s with fb := _, fcnt := s.fcnt + BitVec.ofNat 10 cs.length }) hp hwf
    (by simp only [hn]; omega)]
  simp only [hn]
  rw [if_pos (by omega)]
  simp only [Memory.span_writeAll hm (show s.fcnt.toNat + cs.length ≤ 522 by omega), Memory.writeAll_append,
    commitAll_nil, List.append_assoc]
  rfl

/-- Bytes that complete a frame, the rest of them beginning the next one at address 0. -/
theorem commitAll_wrap {bs : List Byte} {s : State} (hp : s.phase ≠ .hunt) (hm : s.fb.wf = true)
    (hf : s.fcnt.toNat < frameSize s.ctrl)
    (hl : bs.length < frameSize s.ctrl) (hge : frameSize s.ctrl ≤ s.fcnt.toNat + bs.length) :
    let k := frameSize s.ctrl - s.fcnt.toNat
    commitAll bs s = .ok { s with
      fb := (s.fb.writeAll s.fcnt.toNat (bs.take k)).writeAll 0 (bs.drop k)
      frames := s.frames + 1, sframes := s.sframes + 1
      output := s.output ++ [.frame (s.sessions - 1) (decodeSpan s.ctrl (s.fb.span 0 s.fcnt.toNat ++ bs.take k))]
      fcnt := BitVec.ofNat 10 (s.fcnt.toNat + bs.length - frameSize s.ctrl) } := by
  intro k
  have hle := frameSize_le s.ctrl
  have ht : (bs.take k).length = k := by rw [List.length_take]; omega
  have hd : (bs.drop k).length = s.fcnt.toNat + bs.length - frameSize s.ctrl := by rw [List.length_drop]; omega
  have hne : bs.take k ≠ [] := by intro h; rw [h] at ht; simp at ht; omega
  have hw : (s.fb.writeAll s.fcnt.toNat (bs.take k)).wf = true := Memory.writeAll_wf hm (by omega)
  conv => lhs; rw [← List.take_append_drop k bs]
  rw [commitAll_append, commitAll_frame hp hm hne (by omega)]
  simp only [Except.bind]
  rw [commitAll_store (s := { s with
    fb := _, frames := s.frames + 1, sframes := s.sframes + 1, output := _, fcnt := 0#10 }) hp hw (by simp only [BitVec.toNat_ofNat]; omega)]
  simp [hd]

end Sys2Proof.Machine
end

