-- ==== Sys2Proof/Laws/Cases.lean ====
section
/-! SUPPORT. What each operation can do when it answers a next state, said once: inversion lemmas that the whole-machine
rules cite instead of unfolding the step. They hold from every state, whatever its fields. -/

namespace Sys2Proof.Machine

theorem memWrite_next {a : Nat} {b : Byte} {s t : State} (h : memWrite a b s = .ok t) :
    a < 522 ∧ t = { s with fb := s.fb.write a b } := by
  unfold memWrite at h
  split at h
  · next ha => exact ⟨by simpa using ha, by simpa using h.symm⟩
  · cases h

theorem storeByte_next {b : Byte} {s t : State} (h : storeByte b s = .ok t) :
    s.fcnt.toNat < 522 ∧ t = { s with fb := s.fb.write s.fcnt.toNat b, fcnt := s.fcnt + 1 } := by
  unfold storeByte at h
  cases hw : memWrite s.fcnt.toNat b s with
  | error f => rw [hw] at h; cases h
  | ok s1 =>
    obtain ⟨h1, rfl⟩ := memWrite_next hw
    rw [hw] at h
    exact ⟨h1, by simpa [Except.map] using h.symm⟩

/-- COMMIT (42_offline_splitter.md R178) discards the byte, stores it, or stores it and emits a FRAME. -/
theorem commit_cases {x : Byte} {s t : State} (h : commit x s = .ok t) :
    (s.phase = .hunt ∧ t = { s with gap := s.gap + 1, discarded := s.discarded + 1 }) ∨
    (s.phase ≠ .hunt ∧ t = { s with fb := s.fb.write s.fcnt.toNat x, fcnt := s.fcnt + 1 }) ∨
    (s.phase ≠ .hunt ∧ ∃ r, t = { s with
      fb := s.fb.write s.fcnt.toNat x, frames := s.frames + 1, sframes := s.sframes + 1
      output := s.output ++ [.frame (s.sessions - 1) r], fcnt := 0#10 }) := by
  by_cases hp : s.phase = .hunt
  · rw [commit_preamble x hp] at h
    exact .inl ⟨hp, by simpa using h.symm⟩
  · rw [commit, if_neg hp] at h
    cases hs : storeByte x s with
    | error f => rw [hs] at h; cases h
    | ok s1 =>
      obtain ⟨-, rfl⟩ := storeByte_next hs
      rw [hs] at h
      simp only [Except.bind, memRead_frame] at h
      split at h
      · exact .inr (.inr ⟨hp, _, (Except.ok.inj h).symm⟩)
      · exact .inr (.inl ⟨hp, (Except.ok.inj h).symm⟩)

/-- Whatever COMMIT relates, COMMIT of several bytes relates. -/
theorem commitAll_induction {R : State → State → Prop} (refl : ∀ s, R s s)
    (trans : ∀ {s t u}, R s t → R t u → R s u) (one : ∀ {x s t}, commit x s = .ok t → R s t) :
    ∀ {bs : List Byte} {s t : State}, commitAll bs s = .ok t → R s t := by
  intro bs
  induction bs with
  | nil => intro s t h; cases h; exact refl s
  | cons x l ih =>
    intro s t h
    rw [commitAll_cons] at h
    cases hc : commit x s with
    | error f => rw [hc] at h; cases h
    | ok s1 => rw [hc] at h; exact trans (one hc) (ih h)

/-- COMMIT of any bytes leaves everything but `FB`, `FCNT`, `GAP`, `DISCARDED`, `FRAMES`, `SFRAMES` and the trace. -/
theorem commitAll_fields {bs : List Byte} {s t : State} (h : commitAll bs s = .ok t) :
    t.ctrl = s.ctrl ∧ t.phase = s.phase ∧ t.j = s.j ∧ t.locked = s.locked ∧ t.errCfg = s.errCfg ∧
    t.errIllegal = s.errIllegal ∧ t.errAfterClose = s.errAfterClose ∧ t.nomarker = s.nomarker ∧
    t.resyncs = s.resyncs ∧ t.lastGap = s.lastGap ∧ t.sessions = s.sessions ∧ t.bytesIn = s.bytesIn ∧
    t.shortspans = s.shortspans ∧ t.input = s.input := by
  refine commitAll_induction (R := fun s t => t.ctrl = s.ctrl ∧ t.phase = s.phase ∧ t.j = s.j ∧
    t.locked = s.locked ∧ t.errCfg = s.errCfg ∧ t.errIllegal = s.errIllegal ∧ t.errAfterClose = s.errAfterClose ∧
    t.nomarker = s.nomarker ∧ t.resyncs = s.resyncs ∧ t.lastGap = s.lastGap ∧ t.sessions = s.sessions ∧
    t.bytesIn = s.bytesIn ∧ t.shortspans = s.shortspans ∧ t.input = s.input) ?_ ?_ ?_ h
  · intro s; simp
  · intro s t u h1 h2; simp_all
  · intro x s t h
    rcases commit_cases h with ⟨-, rfl⟩ | ⟨-, rfl⟩ | ⟨-, r, rfl⟩ <;> simp

/-- FEED in live COLLECT (41_live_sync.md R144) stores the byte, and emits a FRAME when it is the last. -/
theorem feedLiveCollect_cases {b : Byte} {s t : State} (h : feedLiveCollect b s = .ok t) :
    t = { s with fb := s.fb.write s.fcnt.toNat b, fcnt := s.fcnt + 1 } ∨
    ∃ r, t = { s with
      fb := s.fb.write s.fcnt.toNat b, frames := s.frames + 1, output := s.output ++ [.frame 0#32 r]
      phase := .hunt, j := 0#2, fcnt := 0#10 } := by
  rw [feedLiveCollect] at h
  cases hs : storeByte b s with
  | error f => rw [hs] at h; cases h
  | ok s1 =>
    obtain ⟨-, rfl⟩ := storeByte_next hs
    rw [hs] at h
    simp only [Except.bind, memRead_frame] at h
    split at h
    · exact .inr ⟨_, (Except.ok.inj h).symm⟩
    · exact .inl (Except.ok.inj h).symm

/-- FEED in live HUNT (41_live_sync.md R143) acquires the marker, with or without a RESYNC, or discards. -/
theorem feedLiveHunt_cases (b : Byte) (s : State) :
    (s.gap = 0#32 ∧ feedLiveHunt b s = { s with phase := .collect, j := 0#2, fcnt := 0#10 }) ∨
    (s.gap ≠ 0#32 ∧ feedLiveHunt b s = { s with
      resyncs := s.resyncs + 1, lastGap := s.gap, output := s.output ++ [.resync s.gap], gap := 0#32
      phase := .collect, j := 0#2, fcnt := 0#10 }) ∨
    ∃ (d : Counter) (k : BitVec 2),
      feedLiveHunt b s = { s with gap := s.gap + d, discarded := s.discarded + d, j := k } := by
  unfold feedLiveHunt
  simp only
  split
  · by_cases hg : s.gap = 0#32
    · exact .inl ⟨hg, by simp [reportGap, hg]⟩
    · exact .inr (.inl ⟨hg, by simp [reportGap, hg, emit]⟩)
  · exact .inr (.inr ⟨_, _, rfl⟩)

/-- FEED of `A5` in offline mode (42_offline_splitter.md R176) counts it, or begins a session, ending one or not. -/
theorem feedOfflineA5_cases (s : State) :
    (∃ k : BitVec 2, feedOfflineA5 s = { s with j := k }) ∨
    (s.phase ≠ .collect ∧ feedOfflineA5 s = { s with
      j := 0#2, sessions := s.sessions + 1, output := s.output ++ [.sessionStart s.sessions s.gap]
      gap := 0#32, phase := .collect, sframes := 0#32, fcnt := 0#10 }) ∨
    (s.phase = .collect ∧ feedOfflineA5 s = { s with
      j := 0#2, sessions := s.sessions + 1
      shortspans := if s.fcnt = 0#10 then s.shortspans else s.shortspans + 1
      discarded := s.discarded + s.fcnt.setWidth 32
      output := s.output ++ [.sessionEnd (s.sessions - 1) s.sframes (s.fcnt.setWidth 32),
                             .sessionStart s.sessions s.gap]
      gap := 0#32, phase := .collect, sframes := 0#32, fcnt := 0#10 }) := by
  unfold feedOfflineA5
  simp only
  split
  · by_cases hp : s.phase = .collect
    · exact .inr (.inr ⟨hp, by simp [startSession, closeSession, emit, hp]⟩)
    · exact .inr (.inl ⟨hp, by simp [startSession, emit, hp]⟩)
  · exact .inl ⟨_, rfl⟩

/-- The end of an offline capture (42_offline_splitter.md R180) ends a session, or reports that there was none. -/
theorem endCapture_cases (s : State) :
    (s.phase = .collect ∧ endCapture s = { s with
      shortspans := if s.fcnt = 0#10 then s.shortspans else s.shortspans + 1
      discarded := s.discarded + s.fcnt.setWidth 32, fcnt := 0#10
      output := s.output ++ [.sessionEnd (s.sessions - 1) s.sframes (s.fcnt.setWidth 32), .closed s.gap]
      gap := 0#32, phase := .closed }) ∨
    (s.phase ≠ .collect ∧ endCapture s = { s with
      nomarker := true, output := s.output ++ [.noMarker, .closed s.gap], gap := 0#32, phase := .closed }) := by
  by_cases hp : s.phase = .collect
  · exact .inl ⟨hp, by simp [endCapture, closeSession, emit, hp]⟩
  · exact .inr ⟨hp, by simp [endCapture, emit, hp]⟩

/-- A FEED that is not refused (43_control_ops.md R206), by the unit that takes it. -/
theorem feedUnit_cases {b : Byte} {s t : State} (h : feedUnit b s = .ok t) :
    (isOffline s.ctrl = false ∧ s.phase = .hunt ∧ t = feedLiveHunt b s) ∨
    (isOffline s.ctrl = false ∧ s.phase ≠ .hunt ∧ feedLiveCollect b s = .ok t) ∨
    (isOffline s.ctrl = true ∧ b = 0xA5#8 ∧ t = feedOfflineA5 s) ∨
    (isOffline s.ctrl = true ∧ b ≠ 0xA5#8 ∧
      commitAll (List.replicate s.j.toNat 0xA5#8 ++ [b]) { s with j := 0#2 } = .ok t) := by
  cases ho : isOffline s.ctrl
  · by_cases hp : s.phase = .hunt
    · rw [feedUnit_hunt b ho hp] at h
      exact .inl ⟨rfl, hp, (Except.ok.inj h).symm⟩
    · rw [feedUnit_collect b ho hp] at h
      exact .inr (.inl ⟨rfl, hp, h⟩)
  · by_cases hb : b = 0xA5#8
    · subst hb
      rw [feedUnit_a5 ho] at h
      exact .inr (.inr (.inl ⟨rfl, rfl, (Except.ok.inj h).symm⟩))
    · rw [feedUnit_other ho hb] at h
      exact .inr (.inr (.inr ⟨rfl, hb, h⟩))

/-- An EOS that is not refused (43_control_ops.md R207), by the unit that takes it. -/
theorem eosUnit_cases {s t : State} (h : eosUnit s = .ok t) :
    (isOffline s.ctrl = false ∧ t = eosLive s) ∨
    (isOffline s.ctrl = true ∧ ∃ u, commitAll (List.replicate s.j.toNat 0xA5#8) { s with j := 0#2 } = .ok u ∧
      t = endCapture u) := by
  cases ho : isOffline s.ctrl
  · rw [eosUnit_live ho] at h
    exact .inl ⟨rfl, (Except.ok.inj h).symm⟩
  · rw [eosUnit_offline ho, eosOffline] at h
    refine .inr ⟨rfl, ?_⟩
    simp only [sessionByte_eq] at h
    cases hc : commitAll (List.replicate s.j.toNat 0xA5#8) { s with j := 0#2 } with
    | error f => rw [hc] at h; cases h
    | ok u => rw [hc] at h; exact ⟨u, rfl, (Except.ok.inj h).symm⟩

/-- What one instruction does when it answers a next state, by the operation that runs. -/
theorem exec_cases {i : Instr} {s t : State} (h : exec i s = .next t) :
    (i = .nop ∧ t = s) ∨
    (∃ a, i = .read a ∧ t = emit (.readData a (readReg a s)) s) ∨
    (i = .restart ∧ t = restartElements s) ∨
    (∃ v, i = .cfgWrite v ∧ s.locked = false ∧ t = { s with ctrl := v }) ∨
    (∃ v, i = .cfgWrite v ∧ s.locked = true ∧ t = raiseError .cfgLocked (encode i) s) ∨
    (((∃ b, i = .feed b) ∨ i = .eos) ∧ s.phase = .closed ∧ t = raiseError .afterClose (encode i) s) ∨
    (∃ b, i = .feed b ∧ s.phase ≠ .closed ∧ feedUnit b s.fed = .ok t) ∨
    (i = .eos ∧ s.phase ≠ .closed ∧ eosUnit s.ended = .ok t) := by
  cases i with
  | nop => cases h; exact .inl ⟨rfl, rfl⟩
  | read a => cases h; exact .inr (.inl ⟨a, rfl, rfl⟩)
  | restart => cases h; exact .inr (.inr (.inl ⟨rfl, rfl⟩))
  | cfgWrite v =>
    cases hl : s.locked
    · refine .inr (.inr (.inr (.inl ⟨v, rfl, rfl, ?_⟩)))
      simpa [exec, execCfgWrite, cfgWriteWith, hl] using h.symm
    · refine .inr (.inr (.inr (.inr (.inl ⟨v, rfl, rfl, ?_⟩))))
      simpa [exec, execCfgWrite, cfgWriteWith, hl] using h.symm
  | feed b =>
    by_cases hp : s.phase = .closed
    · rw [exec_feed_closed b hp] at h
      cases h
      exact .inr (.inr (.inr (.inr (.inr (.inl ⟨.inl ⟨b, rfl⟩, hp, rfl⟩)))))
    · rw [exec_feed_open b hp, finish_eq_next] at h
      exact .inr (.inr (.inr (.inr (.inr (.inr (.inl ⟨b, rfl, hp, h⟩))))))
  | eos =>
    by_cases hp : s.phase = .closed
    · rw [exec_eos_closed hp] at h
      cases h
      exact .inr (.inr (.inr (.inr (.inr (.inl ⟨.inr rfl, hp, rfl⟩)))))
    · rw [exec_eos_open hp, finish_eq_next] at h
      exact .inr (.inr (.inr (.inr (.inr (.inr (.inr ⟨rfl, hp, h⟩))))))

/-- What one step does when it answers a next state, by what is taken from the input. -/
theorem step_cases {s t : State} (h : step s = .next t) :
    (s.input = [] ∧ t = s) ∨
    (∃ rest, s.input = .reset :: rest ∧ t = resetElements { s with input := rest }) ∨
    (∃ w rest, s.input = .token w :: rest ∧ decode w = none ∧
      t = raiseError .illegalToken w { s with input := rest }) ∨
    (∃ w rest i, s.input = .token w :: rest ∧ decode w = some i ∧ exec i { s with input := rest } = .next t) := by
  match hi : s.input with
  | [] => rw [step_idle hi] at h; cases h; exact .inl ⟨rfl, rfl⟩
  | .reset :: rest => rw [step_reset hi] at h; cases h; exact .inr (.inl ⟨rest, rfl, rfl⟩)
  | .token w :: rest =>
    rw [step_token hi, runToken] at h
    cases hd : decode w with
    | none =>
      rw [hd] at h
      cases h
      exact .inr (.inr (.inl ⟨w, rest, rfl, hd, rfl⟩))
    | some i =>
      rw [hd] at h
      exact .inr (.inr (.inr ⟨w, rest, i, rfl, hd, h⟩))

end Sys2Proof.Machine
end

