-- ==== Sys2Proof/Laws/Deser.lean ====
section
/-! SUPPORT. Little-endian fields of a byte sequence (20_memory.md R61) and their encoders (40_deserializer.md R118). -/

namespace Sys2Proof.Machine

theorem slice_succ {s : List Byte} {o : Nat} (n : Nat) (h : o < s.length) :
    slice s o (n + 1) = s.getD o 0#8 :: slice s (o + 1) n := by
  rw [slice, List.drop_eq_getElem_cons h, List.take_succ_cons, slice]
  simp [List.getD_eq_getElem?_getD, List.getElem?_eq_getElem h]

@[simp] theorem slice_zero (s : List Byte) (o : Nat) : slice s o 0 = [] := by simp [slice]

theorem slice_two {s : List Byte} {o : Nat} (h : o + 2 ≤ s.length) :
    slice s o 2 = [s.getD o 0#8, s.getD (o + 1) 0#8] := by
  rw [slice_succ 1 (by omega), slice_succ 0 (by omega), slice_zero]

theorem slice_four {s : List Byte} {o : Nat} (h : o + 4 ≤ s.length) :
    slice s o 4 = [s.getD o 0#8, s.getD (o + 1) 0#8, s.getD (o + 2) 0#8, s.getD (o + 3) 0#8] := by
  rw [slice_succ 3 (by omega), slice_succ 2 (by omega), slice_succ 1 (by omega), slice_succ 0 (by omega), slice_zero]

/-- A `u16` read from a sequence that holds it. -/
theorem le16_toNat {s : List Byte} {o : Nat} (h : o + 2 ≤ s.length) :
    (le16 s o).toNat = (s.getD o 0#8).toNat + 256 * (s.getD (o + 1) 0#8).toNat := by
  have h0 := (s.getD o 0#8).isLt
  have h1 := (s.getD (o + 1) 0#8).isLt
  rw [le16, slice_two h, BitVec.toNat_ofNat]
  simp only [leValue]
  omega

/-- A `u32` read from a sequence that holds it. -/
theorem le32_toNat {s : List Byte} {o : Nat} (h : o + 4 ≤ s.length) :
    (le32 s o).toNat = (s.getD o 0#8).toNat + 2 ^ 8 * (s.getD (o + 1) 0#8).toNat +
      2 ^ 16 * (s.getD (o + 2) 0#8).toNat + 2 ^ 24 * (s.getD (o + 3) 0#8).toNat := by
  have h0 := (s.getD o 0#8).isLt
  have h1 := (s.getD (o + 1) 0#8).isLt
  have h2 := (s.getD (o + 2) 0#8).isLt
  have h3 := (s.getD (o + 3) 0#8).isLt
  rw [le32, slice_four h, BitVec.toNat_ofNat]
  simp only [leValue]
  omega

@[simp] theorem bytes16_length (v : Half) : (bytes16 v).length = 2 := rfl

@[simp] theorem bytes32_length (v : Word) : (bytes32 v).length = 4 := rfl

/-- The bytes of a `u16` carry its value. -/
theorem leValue_bytes16 (v : Half) : leValue (bytes16 v) = v.toNat := by
  have := v.isLt
  simp only [bytes16, leValue, BitVec.extractLsb'_toNat, Nat.shiftRight_eq_div_pow]
  omega

/-- The bytes of a `u32` carry its value. -/
theorem leValue_bytes32 (v : Word) : leValue (bytes32 v) = v.toNat := by
  have := v.isLt
  simp only [bytes32, leValue, BitVec.extractLsb'_toNat, Nat.shiftRight_eq_div_pow]
  omega

/-- Two bytes are those of the `u16` they make. -/
theorem bytes16_le16 {s : List Byte} {o : Nat} (h : o + 2 ≤ s.length) : bytes16 (le16 s o) = slice s o 2 := by
  have h0 := (s.getD o 0#8).isLt
  have h1 := (s.getD (o + 1) 0#8).isLt
  rw [slice_two h]
  simp only [bytes16, List.cons.injEq, and_true]
  refine ⟨?_, ?_⟩ <;>
  · apply BitVec.eq_of_toNat_eq
    rw [BitVec.extractLsb'_toNat, le16_toNat h, Nat.shiftRight_eq_div_pow]
    omega

/-- Four bytes are those of the `u32` they make. -/
theorem bytes32_le32 {s : List Byte} {o : Nat} (h : o + 4 ≤ s.length) : bytes32 (le32 s o) = slice s o 4 := by
  have h0 := (s.getD o 0#8).isLt
  have h1 := (s.getD (o + 1) 0#8).isLt
  have h2 := (s.getD (o + 2) 0#8).isLt
  have h3 := (s.getD (o + 3) 0#8).isLt
  rw [slice_four h]
  simp only [bytes32, List.cons.injEq, and_true]
  refine ⟨?_, ?_, ?_, ?_⟩ <;>
  · apply BitVec.eq_of_toNat_eq
    rw [BitVec.extractLsb'_toNat, le32_toNat h, Nat.shiftRight_eq_div_pow]
    omega

/-- A `u16` encoded after `p` is read back at `p`'s length. -/
theorem le16_append (p t : List Byte) (v : Half) : le16 (p ++ (bytes16 v ++ t)) p.length = v := by
  rw [le16, slice, List.drop_left, List.take_left' (bytes16_length v), leValue_bytes16, BitVec.ofNat_toNat,
    BitVec.setWidth_eq]

/-- A `u32` encoded after `p` is read back at `p`'s length. -/
theorem le32_append (p t : List Byte) (v : Word) : le32 (p ++ (bytes32 v ++ t)) p.length = v := by
  rw [le32, slice, List.drop_left, List.take_left' (bytes32_length v), leValue_bytes32, BitVec.ofNat_toNat,
    BitVec.setWidth_eq]

end Sys2Proof.Machine
end

