-- ==== Sys2Proof/Laws/Run.lean ====
section
/-! SUPPORT. Runs of several steps, one step at a time. -/

namespace Sys2Proof.Machine

@[simp] theorem run_zero (s : State) : Sys2Proof.core.run 0 s = .next s := rfl

theorem core_run_next (M : Host.Core) {n : Nat} {s t : M.State} (h : M.step s = .next t) :
    M.run (n + 1) s = M.run n t := by
  simp only [Host.Core.run, h]

/-- A run that goes on begins with a step that goes on. -/
theorem core_run_inv (M : Host.Core) {n : Nat} {s u : M.State} (h : M.run (n + 1) s = .next u) :
    ∃ t, M.step s = .next t ∧ M.run n t = .next u := by
  simp only [Host.Core.run] at h
  cases hs : M.step s with
  | next t => rw [hs] at h; exact ⟨t, rfl, h⟩
  | fault r => rw [hs] at h; cases h
  | refused r => rw [hs] at h; cases h

theorem run_next {n : Nat} {s t : State} (h : step s = .next t) :
    Sys2Proof.core.run (n + 1) s = Sys2Proof.core.run n t :=
  core_run_next Sys2Proof.core h

theorem run_one {s t : State} (h : step s = .next t) : Sys2Proof.core.run 1 s = .next t := run_next h

/-- A run that goes on is a first step that goes on and a run from there. -/
theorem run_succ_eq_next {n : Nat} {s u : State} :
    Sys2Proof.core.run (n + 1) s = .next u ↔ ∃ t, step s = .next t ∧ Sys2Proof.core.run n t = .next u :=
  ⟨core_run_inv Sys2Proof.core, fun ⟨_, h, hr⟩ => (run_next h).trans hr⟩

/-- A run of `m + n` steps is a run of `m` and then of `n`. -/
theorem run_add {m n : Nat} {t : State} : ∀ {s : State}, Sys2Proof.core.run m s = .next t →
    Sys2Proof.core.run (m + n) s = Sys2Proof.core.run n t := by
  induction m with
  | zero => intro s h; cases h; rw [Nat.zero_add]
  | succ m ih =>
    intro s h
    obtain ⟨u, hu, hr⟩ := run_succ_eq_next.1 h
    rw [Nat.add_right_comm, run_next hu, ih hr]

/-- What every step relates, a run relates. -/
theorem run_induction {R : State → State → Prop} (refl : ∀ s, R s s) (trans : ∀ {s t u}, R s t → R t u → R s u)
    (one : ∀ {s t}, step s = .next t → R s t) :
    ∀ {n : Nat} {s t : State}, Sys2Proof.core.run n s = .next t → R s t := by
  intro n
  induction n with
  | zero => intro s t h; cases h; exact refl s
  | succ n ih =>
    intro s t h
    obtain ⟨u, hu, hr⟩ := run_succ_eq_next.1 h
    exact trans (one hu) (ih hr)

end Sys2Proof.Machine
end

