-- ==== Sys2Proof/Laws/Invariant.lean ====
section
/-! SUPPORT. The invariant under the shared operations: the ports, the prologues, `raise` and COMMIT; the
accounted bytes and the stored addresses case by case. -/

namespace Sys2Proof.Machine

variable {s : State}

theorem State.Inv.withInput (h : s.Inv) (r : List Input) : State.Inv { s with input := r } :=
  ⟨h.fbCanonical, h.fcntBelow, h.huntEmpty, h.liveHunt, h.liveCollect, h.collectGap, h.closedEmpty, h.liveQuiet,
    h.offlineQuiet, h.preamble, fun hl => by rw [h.unlocked hl], h.closedFlags⟩

theorem State.Inv.emit (h : s.Inv) (e : Event) : (emit e s).Inv :=
  ⟨h.fbCanonical, h.fcntBelow, h.huntEmpty, h.liveHunt, h.liveCollect, h.collectGap, h.closedEmpty, h.liveQuiet,
    h.offlineQuiet, h.preamble, fun hl => by rw [h.unlocked hl]; rfl, h.closedFlags⟩

theorem State.Inv.fed (h : s.Inv) : s.fed.Inv :=
  ⟨h.fbCanonical, h.fcntBelow, h.huntEmpty, h.liveHunt, h.liveCollect, h.collectGap, h.closedEmpty, h.liveQuiet,
    h.offlineQuiet, h.preamble, by simp, h.closedFlags⟩

theorem State.Inv.ended (h : s.Inv) : s.ended.Inv :=
  ⟨h.fbCanonical, h.fcntBelow, h.huntEmpty, h.liveHunt, h.liveCollect, h.collectGap, h.closedEmpty, h.liveQuiet,
    h.offlineQuiet, h.preamble, by simp, h.closedFlags⟩

/-- Before the first accepted FEED or EOS the stream is not closed. -/
theorem State.Inv.open_of_unlocked (h : s.Inv) (hl : s.locked = false) : s.phase ≠ .closed := by
  rw [h.unlocked hl]
  simp [State.reset]

/-- The pending `A5` bytes of offline mode may be taken up at any time. -/
theorem State.Inv.noPending (h : s.Inv) (ho : isOffline s.ctrl = true) (hl : s.locked = true) :
    State.Inv { s with j := 0#2 } :=
  ⟨h.fbCanonical, h.fcntBelow, h.huntEmpty, by simp [ho], by simp [ho], h.collectGap,
    fun hp => ⟨rfl, (h.closedEmpty hp).2⟩, h.liveQuiet, h.offlineQuiet, h.preamble, by simp [hl], h.closedFlags⟩

/-- COMMIT in offline mode, before the end of stream, completes and keeps the invariant. -/
theorem commit_keeps (x : Byte) (h : s.Inv) (ho : isOffline s.ctrl = true) (hl : s.locked = true)
    (hp : s.phase ≠ .closed) : ∃ t, commit x s = .ok t ∧ t.Inv := by
  have h522 := frameSize_le s.ctrl
  have h12 := frameSize_ge s.ctrl
  have hf := h.fcntBelow
  have hcf := h.closedFlags
  have hq := h.offlineQuiet ho
  by_cases hh : s.phase = .hunt
  · refine ⟨_, commit_preamble x hh, ?_⟩
    constructor <;> simp_all [h.fbCanonical, h.huntEmpty hh, h.preamble ho hh]
  · have hc : s.phase = .collect := by cases h : s.phase <;> simp_all
    have hg := h.collectGap hc
    have hw := Memory.write_wf h.fbCanonical (a := s.fcnt.toNat) (by simp; omega) x
    refine ⟨_, commit_session x hh h.fbCanonical hf, ?_⟩
    split
    · constructor <;> simp_all
      omega
    · next hne =>
      have hs := fcnt_succ hf h522
      have : (s.fcnt + 1).toNat < frameSize s.ctrl := by omega
      constructor <;> simp_all

/-- COMMIT of several bytes likewise. -/
theorem commitAll_keeps {bs : List Byte} : ∀ {s : State}, s.Inv → isOffline s.ctrl = true → s.locked = true →
    s.phase ≠ .closed → ∃ t, commitAll bs s = .ok t ∧ t.Inv := by
  induction bs with
  | nil => intro s h _ _ _; exact ⟨s, rfl, h⟩
  | cons x bs ih =>
    intro s h ho hl hp
    obtain ⟨t, ht, hi⟩ := commit_keeps x h ho hl hp
    have hf := commitAll_fields (bs := [x]) (s := s) (t := t) (by rw [commitAll_cons, ht]; rfl)
    obtain ⟨u, hu, hi'⟩ := ih hi (by rw [hf.1]; exact ho) (by rw [hf.2.2.2.1]; exact hl) (by rw [hf.2.1]; exact hp)
    exact ⟨u, by rw [commitAll_cons, ht]; exact hu, hi'⟩

/-! ### What the claims compute: accounted bytes and stored addresses, case by case -/

theorem accountedBytes_live (ho : isOffline s.ctrl = false) :
    accountedBytes s = s.frames * BitVec.ofNat 32 (markerWidth s.ctrl + frameSize s.ctrl) + s.discarded
      + BitVec.ofNat 32 (heldBytes s) := by
  simp [accountedBytes, ho]

theorem accountedBytes_offline (ho : isOffline s.ctrl = true) :
    accountedBytes s = 4#32 * s.sessions + s.frames * BitVec.ofNat 32 (frameSize s.ctrl) + s.discarded
      + BitVec.ofNat 32 (heldBytes s) := by
  simp [accountedBytes, ho]

theorem feedStores_not_collect (b : Byte) (hp : s.phase ≠ .collect) : feedStores b s = [] := by
  simp [feedStores, hp]

theorem feedStores_live (b : Byte) (hp : s.phase = .collect) (ho : isOffline s.ctrl = false) :
    feedStores b s = [storeAddr s 0] := by
  simp [feedStores, hp, ho]

theorem feedStores_A5 (ho : isOffline s.ctrl = true) : feedStores 0xA5#8 s = [] := by
  simp [feedStores, ho]

theorem feedStores_session {b : Byte} (hp : s.phase = .collect) (ho : isOffline s.ctrl = true) (hb : b ≠ 0xA5#8) :
    feedStores b s = (List.range (s.j.toNat + 1)).map (storeAddr s) := by
  simp [feedStores, hp, ho, hb]

end Sys2Proof.Machine
end

