-- ==== Sys2Proof/Laws/PerInstr.lean ====
section
/-! SUPPORT. Statements for all instructions, one lemma per constructor. -/

namespace Sys2Proof.Laws.EncodedRow

/-- The encoding of an instruction belongs to its own row, and the row's operand field reads its operand back
(30_encoding.md R86 to R92). -/
def Statement (i : Instr) : Prop :=
  (rowOf i.op).admits (encode i) = true ∧ instrOf (encode i) i.op = i

theorem nop : Statement .nop := by unfold Statement; decide

theorem feed (b : Byte) : Statement (.feed b) := by
  constructor
  · simp only [Row.admits, encode, rowOf, Instr.op, operandBits, beq_iff_eq]
    rw [low_field_masked _ _ b (by decide)]
    rfl
  · simp only [instrOf, encode, rowOf, Instr.op, operandBits, byteField]
    rw [low_field_value (by decide) _ b (by decide)]

theorem eos : Statement .eos := by unfold Statement; decide

theorem cfgWrite (v : Ctrl) : Statement (.cfgWrite v) := by
  constructor
  · simp only [Row.admits, encode, rowOf, Instr.op, operandBits, beq_iff_eq]
    rw [low_field_masked _ _ v (by decide)]
    rfl
  · simp only [instrOf, encode, rowOf, Instr.op, operandBits, valueField]
    rw [low_field_value (by decide) _ v (by decide)]

theorem restart : Statement .restart := by unfold Statement; decide

theorem read (a : RegAddr) : Statement (.read a) := by
  constructor
  · simp only [Row.admits, encode, rowOf, Instr.op, operandBits, beq_iff_eq]
    rw [low_field_masked _ _ a (by decide)]
    rfl
  · simp only [instrOf, encode, rowOf, Instr.op, operandBits, addrField]
    rw [low_field_value (by decide) _ a (by decide)]

end Sys2Proof.Laws.EncodedRow
end

