-- ==== Sys2Proof/Laws/Stream.lean ====
section
/-! SUPPORT. The first occurrence of a marker, and the kept prefix (41_live_sync.md R141, R146): what `firstMarker` and
`keepUpTo` answer, and that no occurrence begins in the bytes the matcher gives up. -/

namespace Sys2Proof.Machine

theorem marker_ne_nil (c : Ctrl) : marker c ≠ [] := by
  intro h
  have := markerWidth_cases c
  rw [← marker_length, h] at this
  simp at this

/-- Bytes in which no occurrence begins only move the first occurrence. -/
theorem firstMarker_skip {m : List Byte} : ∀ (d : Nat) {T : List Byte}, d ≤ T.length →
    (∀ i, i < d → (T.drop i).take m.length ≠ m) →
    firstMarker m T = (firstMarker m (T.drop d)).map (· + d) := by
  intro d
  induction d with
  | zero => intro T _ _; simp
  | succ d ih =>
    intro T hd h
    cases T with
    | nil => simp at hd
    | cons b t =>
      have h0 := h 0 (by omega)
      simp only [List.drop_zero] at h0
      rw [firstMarker, if_neg h0,
        ih (T := t) (by simpa using hd) (fun i hi => by simpa using h (i + 1) (by omega))]
      simp only [Option.map_map, List.drop_succ_cons]
      congr 1

/-- `firstMarker` answers the lowest offset at which the marker occurs. -/
theorem firstMarker_eq_some {m T : List Byte} {k : Nat} (hm : m ≠ []) :
    firstMarker m T = some k ↔
      k + m.length ≤ T.length ∧ (T.drop k).take m.length = m ∧ ∀ i, i < k → (T.drop i).take m.length ≠ m := by
  have hml : 0 < m.length := List.length_pos_of_ne_nil hm
  induction T generalizing k with
  | nil =>
    simp only [firstMarker]
    constructor
    · intro h; cases h
    · rintro ⟨h, -⟩
      rw [List.length_nil] at h
      omega
  | cons b t ih =>
    rw [firstMarker]
    by_cases h : (b :: t).take m.length = m
    · have hl := congrArg List.length h
      rw [List.length_take] at hl
      rw [if_pos h]
      constructor
      · intro e; cases e; exact ⟨by omega, by simpa using h, by omega⟩
      · rintro ⟨-, -, h3⟩
        cases k with
        | zero => rfl
        | succ k => exact absurd h (by simpa using h3 0 (by omega))
    · rw [if_neg h]
      cases k with
      | zero =>
        constructor
        · intro e; simp at e
        · rintro ⟨-, h2, -⟩; exact absurd (by simpa using h2) h
      | succ k =>
        constructor
        · intro e
          obtain ⟨a1, a2, a3⟩ := ih.1 (show firstMarker m t = some k by simpa using e)
          refine ⟨by simp; omega, by simpa using a2, fun i hi => ?_⟩
          cases i with
          | zero => simpa using h
          | succ i => simpa using a3 i (by omega)
        · rintro ⟨a1, a2, a3⟩
          have : firstMarker m t = some k :=
            ih.2 ⟨by simp at a1; omega, by simpa using a2, fun i hi => by simpa using a3 (i + 1) (by omega)⟩
          simp [this]

/-- `firstMarker` answers none exactly when the marker occurs nowhere. -/
theorem firstMarker_eq_none {m T : List Byte} (hm : m ≠ []) :
    firstMarker m T = none ↔ ∀ i, (T.drop i).take m.length ≠ m := by
  have hml : 0 < m.length := List.length_pos_of_ne_nil hm
  constructor
  · intro h i
    induction i using Nat.strong_induction_on with
    | _ i ih =>
      intro he
      have hl := congrArg List.length he
      rw [List.length_take, List.length_drop] at hl
      rw [(firstMarker_eq_some hm).2 ⟨by omega, he, ih⟩] at h
      cases h
  · intro h
    cases hf : firstMarker m T with
    | none => rfl
    | some k => exact absurd ((firstMarker_eq_some hm).1 hf).2.1 (h k)

/-- A sequence shorter than the marker has no occurrence of it. -/
theorem firstMarker_short {m T : List Byte} (hm : m ≠ []) (h : T.length < m.length) : firstMarker m T = none := by
  rw [firstMarker_eq_none hm]
  intro i he
  have := congrArg List.length he
  rw [List.length_take, List.length_drop] at this
  omega

/-- An occurrence stays the first one whatever follows. -/
theorem firstMarker_append {m T : List Byte} {k : Nat} (hm : m ≠ []) (h : firstMarker m T = some k) (U : List Byte) :
    firstMarker m (T ++ U) = some k := by
  obtain ⟨h1, h2, h3⟩ := (firstMarker_eq_some hm).1 h
  rw [firstMarker_eq_some hm]
  have at_ : ∀ i, i ≤ k → ((T ++ U).drop i).take m.length = (T.drop i).take m.length := by
    intro i hi
    rw [List.drop_append_of_le_length (by omega), List.take_append_of_le_length (by rw [List.length_drop]; omega)]
  exact ⟨by rw [List.length_append]; omega, (at_ k (Nat.le_refl k)).trans h2,
    fun i hi => by rw [at_ i (Nat.le_of_lt hi)]; exact h3 i hi⟩

/-- `keepUpTo m s n` is the greatest `l`, at most `n`, whose last `l` bytes of `s` are the first `l` bytes of `m`. -/
theorem keepUpTo_greatest (m s : List Byte) : ∀ n,
    keepUpTo m s n ≤ n ∧ keepUpTo m s n ≤ s.length ∧
    s.drop (s.length - keepUpTo m s n) = m.take (keepUpTo m s n) ∧
    ∀ l, l ≤ n → l ≤ s.length → s.drop (s.length - l) = m.take l → l ≤ keepUpTo m s n := by
  intro n
  induction n with
  | zero => simp [keepUpTo]
  | succ n ih =>
    unfold keepUpTo
    split
    · next h => exact ⟨Nat.le_refl _, h.1, h.2, fun l hl _ _ => hl⟩
    · next h =>
      refine ⟨by omega, ih.2.1, ih.2.2.1, fun l hl h1 h2 => ?_⟩
      rcases Nat.le_succ_iff.1 hl with hl | rfl
      · exact ih.2.2.2 l hl h1 h2
      · exact absurd ⟨h1, h2⟩ h

theorem keep_lt {m : List Byte} (hm : m ≠ []) (s : List Byte) : keep m s < m.length := by
  have := (keepUpTo_greatest m s (m.length - 1)).1
  have := List.length_pos_of_ne_nil hm
  unfold keep
  omega

theorem keep_le_length (m s : List Byte) : keep m s ≤ s.length := (keepUpTo_greatest m s (m.length - 1)).2.1

theorem drop_keep (m s : List Byte) : s.drop (s.length - keep m s) = m.take (keep m s) :=
  (keepUpTo_greatest m s (m.length - 1)).2.2.1

/-- Where `s` holds no whole marker, giving up all of `s` but its kept prefix loses no occurrence, whatever follows. -/
theorem firstMarker_keep {m s : List Byte} (hm : m ≠ [])
    (hs : ∀ i, i + m.length ≤ s.length → (s.drop i).take m.length ≠ m) (T : List Byte) :
    firstMarker m (s ++ T) = (firstMarker m (m.take (keep m s) ++ T)).map (· + (s.length - keep m s)) := by
  have hml : 0 < m.length := List.length_pos_of_ne_nil hm
  have hk := keep_le_length m s
  rw [firstMarker_skip (s.length - keep m s) (by rw [List.length_append]; omega) (fun i hi he => ?_),
    List.drop_append_of_le_length (by omega), drop_keep]
  rw [List.drop_append_of_le_length (by omega)] at he
  by_cases hl : i + m.length ≤ s.length
  · rw [List.take_append_of_le_length (by rw [List.length_drop]; omega)] at he
    exact hs i hl he
  · have ht := congrArg (List.take (s.length - i)) he
    rw [List.take_take, Nat.min_eq_left (by omega), List.take_append_of_le_length (by rw [List.length_drop]),
      List.take_of_length_le (by rw [List.length_drop])] at ht
    have := (keepUpTo_greatest m s (m.length - 1)).2.2.2 (s.length - i) (by omega) (by omega)
      (by rw [show s.length - (s.length - i) = i by omega]; exact ht)
    change _ ≤ keep m s at this
    omega

end Sys2Proof.Machine
end

