-- ==== Sys2Proof/Tests/Slice0.lean ====
section
/-! SUPPORT. Tests of single definitions and single steps, with results from the spec's own vectors, and for every
statement with hypotheses a witness that meets them. -/

namespace Sys2Proof.Tests

open Sys2Proof Sys2Proof.Machine

/-! ### Well-formedness (30_encoding.md R92, 43_control_ops.md R202) -/

theorem test_wf_mode_needs_offline : (Instr.cfgWrite 0x400#11).wfWith false = false := by decide
theorem test_wf_other_bits_free : (Instr.cfgWrite 0x3FF#11).wfWith false = true := by decide
theorem test_wf_all_with_offline : (Instr.cfgWrite 0x7FF#11).wf = true := by decide

/-! ### Decoding: words written out bit by bit from 30_encoding.md R86 to R91 (95_test_vectors.md 2.1) -/

theorem test_decode_nop : decode 0b0000_0000000000000000000000000000#32 = some .nop := by decide
theorem test_decode_feed : decode 0b0001_00000000000000000000_10101010#32 = some (.feed 0xAA#8) := by decide
theorem test_decode_eos : decode 0b0010_0000000000000000000000000000#32 = some .eos := by decide
/-- `NCH` = 5, `LAYOUT` = 0, `MARKER` = 1, `MODE` = 0. -/
theorem test_decode_cfg : decode 0b0011_00000000000000000_0_1_0_00000101#32 = some (.cfgWrite 0x205#11) := by decide
theorem test_decode_restart : decode 0b0100_0000000000000000000000000000#32 = some .restart := by decide
theorem test_decode_read : decode 0b0101_00000000000000000000_00001100#32 = some (.read 0x0C#8) := by decide
theorem test_decode_reserved_op : decode 0b0110_0000000000000000000000000000#32 = none := by decide
theorem test_decode_must_be_zero : decode 0b0001_00000000000000000001_10101010#32 = none := by decide
theorem test_decode_table_word : decodeTableWord 32 0x50000002 = some (.read 0x02#8) := by decide
theorem test_fetch_word_is_next :
    (State.reset.withFetchWord 32 0x20000000).input = [.token 0x20000000#32] := by decide

/-! ### Assembly (30_encoding.md R96, R97) -/

theorem test_assemble_feed16 : assembleLine (.feed16 0x8200#16) = [0x10000000#32, 0x10000082#32] := by decide
theorem test_assemble_cfg_fields : assembleLine (.cfgFields 1#8 true false true) = [0x30000501#32] := by decide

/-! ### The frame buffer -/

theorem test_reset_memory_canonical : State.reset.fb.wf = true := by decide
theorem test_write_zero_removes : Memory.write [(3, 7#8), (9, 1#8)] 3 0#8 = [(9, 1#8)] := by decide
theorem test_write_keeps_order : Memory.write [(3, 7#8), (9, 1#8)] 5 2#8 = [(3, 7#8), (5, 2#8), (9, 1#8)] := by decide
theorem test_no_byte_522 : memWrite 522 1#8 State.reset = .error (.frameBuffer 522) := by decide
theorem test_byte_521 : (memWrite 521 1#8 State.reset).map (·.fb) = .ok [(521, 1#8)] := by decide

/-! ### Small states -/

/-- Live mode, phase HUNT. -/
def hunt (c : Ctrl) (j : BitVec 2) (gap : Counter) : State :=
  { State.reset with ctrl := c, locked := true, j := j, gap := gap, discarded := gap
                     bytesIn := gap + j.setWidth 32 }

/-- Live mode, phase COLLECT, or an offline session, with the payload bytes so far. -/
def gathering (c : Ctrl) (bs : List Byte) (j : BitVec 2) (sessions : Counter) (bytes : Counter) : State :=
  { State.reset with ctrl := c, phase := .collect, locked := true, j := j, fcnt := BitVec.ofNat 10 bs.length
                     fb := (bs.zipIdx.filter (·.1 != 0#8)).map (fun p => (p.2, p.1)), sessions := sessions
                     bytesIn := bytes }

/-- After an EOS in live mode. -/
def closedState : State := { State.reset with phase := .closed, locked := true }

/-- The payload `10 11 .. 1A` of 95_test_vectors.md's `P0` without its last byte. -/
def p0 : List Byte := [0x10, 0x11, 0x12, 0x13, 0x14, 0x15, 0x16, 0x17, 0x18, 0x19, 0x1A]

/-- The last state of a step. -/
def after (r : Host.Outcome State Fault Refusal) : State :=
  match r with
  | .next t => t
  | .fault _ => State.reset
  | .refused _ => State.reset

/-- Whether a step answers a next state. -/
def goesOn (r : Host.Outcome State Fault Refusal) : Bool :=
  match r with
  | .next _ => true
  | .fault _ => false
  | .refused _ => false

theorem next_after {r : Host.Outcome State Fault Refusal} (h : goesOn r = true) : r = .next (after r) := by
  cases r <;> first | rfl | cases h

/-- What a step appends to the trace of a state that had none. -/
def eventsOf (i : Instr) (s : State) : List Event := (after (exec i s)).output

/-! ### One step per instruction -/

theorem test_nop : exec .nop closedState = .next closedState := rfl

/-- 41_live_sync.md R143: `00 AA AA 55` acquires with `RESYNC{gap = 2}`. -/
theorem test_feed_acquires : eventsOf (.feed 0x55#8) (hunt 0#11 1#2 2#32) = [.resync 2#32] := by decide

/-- 95_test_vectors.md: `P0` with `N = 0`, on its last byte. -/
theorem test_feed_frame : eventsOf (.feed 0x1B#8) (gathering 0#11 p0 0#2 0#32 13#32) =
    [.frame 0#32 ⟨0x13121110#32, 0x17161514#32, 0x18#8, 0x19#8, 0x1B1A#16, [], []⟩] := by decide

/-- 41_live_sync.md R145: `AA 55 01 02 03`, then EOS: `CLOSED{unreported = 5}`. -/
theorem test_eos_partial : eventsOf .eos (gathering 1#11 [1#8, 2#8, 3#8] 0#2 0#32 5#32) = [.closed 5#32] := by decide

/-- 42_offline_splitter.md R180: a capture of `A5 A5 A5`. -/
theorem test_eos_no_marker : eventsOf .eos (hunt 0x400#11 3#2 0#32) = [.noMarker, .closed 3#32] := by decide

/-- 95_test_vectors.md C2: refused once locked. -/
theorem test_cfg_locked : eventsOf (.cfgWrite 2#11) (hunt 1#11 0#2 1#32) = [.error .cfgLocked 0x30000002#32] := by decide

theorem test_cfg_unlocked : (after (exec (.cfgWrite 0x7FF#11) State.reset)).ctrl = 0x7FF#11 := by decide

/-- 95_test_vectors.md C5: RESTART keeps `CTRL` and drops the held bytes. -/
theorem test_restart : exec .restart (hunt 0x201#11 1#2 1#32) = .next { State.reset with ctrl := 0x201#11 } := rfl

/-- 95_test_vectors.md C7: `STATUS` in COLLECT after 3 payload bytes. -/
theorem test_read_status : eventsOf (.read 0x02#8) (gathering 1#11 [1#8, 2#8, 3#8] 0#2 0#32 6#32) =
    [.readData 0x02#8 0x00010031#32] := by decide

/-- 95_test_vectors.md C6: an unmapped address reads 0. -/
theorem test_read_unmapped : eventsOf (.read 0xFF#8) closedState = [.readData 0xFF#8 0#32] := by decide

/-- 95_test_vectors.md C4: a reserved opcode. -/
theorem test_illegal : (after (step { State.reset with input := [.token 0x60000000#32] })).output =
    [.error .illegalToken 0x60000000#32] := by decide

/-! ### Witnesses: for each statement with hypotheses, inputs that meet them, at the ends of each clause's range -/

/-- `s` with a token waiting. -/
def awaiting (w : Token) (s : State) : State := { s with input := [.token w] }

theorem witness_ResetInputClearsEveryElement : ∃ (s : State) (rest : List Input), s.input = .reset :: rest :=
  ⟨{ closedState with input := [.reset, .token 0#32] }, _, rfl⟩

theorem witness_StepRunsTheDecodedToken : (∃ (s : State) (t : Token) (rest : List Input) (i : Instr), s.input = .token t :: rest ∧ decode t = some i) ∧
    (∃ (s : State) (t : Token) (rest : List Input), s.input = .token t :: rest ∧ decode t = none) ∧
    ∃ s : State, s.input = [] :=
  ⟨⟨awaiting 0x20000000#32 closedState, _, _, _, rfl, rfl⟩, ⟨awaiting 0xFFFFFFFF#32 closedState, _, _, rfl, rfl⟩,
   closedState, rfl⟩

theorem witness_FetchedWordIsRun : 0 < 2 ^ 32 ∧ 0xFFFFFFFF < 2 ^ 32 := by decide

theorem witness_DecodeFollowsTheRows : rowOf .nop ∈ rows ∧ rowOf .read ∈ rows ∧ rowOf .nop ≠ rowOf .read := by decide

theorem witness_DecodeOfEncodeIsTheInstruction : (Instr.cfgWrite 0x3FF#11).wfWith false = true ∧
    (Instr.cfgWrite 0x7FF#11).wfWith true = true ∧ (Instr.feed 0xFF#8).wfWith false = true := by decide

theorem witness_EncodeOfDecodeIsTheToken : decodeWith false 0x300003FF#32 = some (.cfgWrite 0x3FF#11) ∧
    decodeWith true 0x100000FF#32 = some (.feed 0xFF#8) := by decide

theorem witness_CfgWriteWritesOnlyWhileUnlocked : State.reset.locked = false ∧ closedState.locked = true := by decide

theorem witness_ModeWithoutTheOfflineUnit : (0x400#11).getLsbD 10 = true := by decide

theorem witness_KeepIsTheLongestMarkerPrefix : (1 ≤ markerWidth 0x200#11 - 1 ∧ 1 ≤ [0xA5#8].length ∧
    [0xA5#8].drop ([0xA5#8].length - 1) = (marker 0x200#11).take 1) ∧
    (0 ≤ markerWidth 0#11 - 1 ∧ 0 ≤ ([] : List Byte).length) := by decide

/-- LiveHuntStep, the rows that do not match. -/
theorem witness_LiveHuntStep_discards :
    (∀ j : BitVec 2, j = 0#2 ∨ j = 1#2 → let s := hunt 0#11 j 0xFFFFFFFF#32
      isOffline s.ctrl = false ∧ s.phase = .hunt ∧ ctrlMarker s.ctrl = false ∧ (s.j = 0#2 ∨ s.j = 1#2 ∧ 0xAA#8 ≠ 0x55#8)) ∧
    (∀ j : BitVec 2, let s := hunt 0x200#11 j 0#32
      isOffline s.ctrl = false ∧ s.phase = .hunt ∧ ctrlMarker s.ctrl = true ∧ (s.j ≠ 3#2 ∨ 0xA4#8 ≠ 0xA5#8)) := by decide

/-- LiveHuntStep, the rows that match, with no gap and with one. -/
theorem witness_LiveHuntStep_acquires : ∀ g : BitVec 1,
    (let s := hunt 0#11 1#2 (g.setWidth 32); isOffline s.ctrl = false ∧ s.phase = .hunt ∧ ctrlMarker s.ctrl = false ∧ s.j = 1#2) ∧
    (let s := hunt 0x200#11 3#2 (g.setWidth 32); isOffline s.ctrl = false ∧ s.phase = .hunt ∧ ctrlMarker s.ctrl = true ∧ s.j = 3#2) := by
  decide

theorem witness_LiveCollectStoresAndEmits : ∀ bs ∈ [[], p0], let s := gathering 0#11 bs 0#2 0#32 0#32
    isOffline s.ctrl = false ∧ s.phase = .collect ∧ s.fb.wf = true ∧ s.fcnt.toNat < frameSize s.ctrl := by decide

theorem witness_LiveEosCloses : (isOffline (hunt 0#11 1#2 0#32).ctrl = false ∧ (hunt 0#11 1#2 0#32).phase = .hunt) ∧
    isOffline (gathering 0#11 p0 0#2 0#32 0#32).ctrl = false ∧ (gathering 0#11 p0 0#2 0#32 0#32).phase = .collect := by decide

theorem witness_OfflineMarkerByte :
    (let s := hunt 0x400#11 2#2 0#32; isOffline s.ctrl = true ∧ s.phase ≠ .closed ∧ s.j ≠ 3#2) ∧
    (let s := hunt 0x400#11 3#2 0#32; isOffline s.ctrl = true ∧ s.phase = .hunt ∧ s.j = 3#2) ∧
    (∀ bs ∈ [[], p0], let s := gathering 0x400#11 bs 3#2 1#32 0#32; isOffline s.ctrl = true ∧ s.phase = .collect ∧ s.j = 3#2) := by
  decide

/-- In PREAMBLE. -/
theorem witness_OfflineOtherByte_preamble : let s := hunt 0x400#11 3#2 0xFFFFFFFF#32
    isOffline s.ctrl = true ∧ s.phase = .hunt ∧ 0xA4#8 ≠ 0xA5#8 := by decide

/-- In SESSION, with `FCNT` 0 and 11 of a 12-byte frame and `J` 0 and 3: the bytes stay inside the frame, end it, and run over. -/
theorem witness_OfflineOtherByte_session : ∀ bs ∈ [[], p0], ∀ j ∈ [0#2, 3#2], let s := gathering 0x400#11 bs j 1#32 0#32
    isOffline s.ctrl = true ∧ s.phase = .collect ∧ 0xA4#8 ≠ 0xA5#8 ∧ s.fb.wf = true ∧ s.fcnt.toNat < frameSize s.ctrl := by
  decide

theorem witness_OfflineEosCloses : (let s := hunt 0x400#11 3#2 0xFFFFFFFF#32; isOffline s.ctrl = true ∧ s.phase = .hunt) ∧
    ∀ bs ∈ [[], p0], ∀ j ∈ [0#2, 1#2, 3#2], let s := gathering 0x400#11 bs j 1#32 0#32
      isOffline s.ctrl = true ∧ s.phase = .collect ∧ s.fb.wf = true ∧ s.fcnt.toNat < frameSize s.ctrl := by decide

theorem witness_ControlFrame : exec (.cfgWrite 5#11) State.reset = .next { State.reset with ctrl := 5#11 } := rfl

theorem witness_FeedFrame : ∀ c ∈ [0#11, 0x400#11], ∀ j ∈ [0#2, 3#2], let s := gathering c p0 j 1#32 0#32
    s.fb.wf = true ∧ s.fcnt.toNat < frameSize s.ctrl ∧ goesOn (exec (.feed 1#8) s) = true := by decide

theorem witness_EosFrame : ∀ c ∈ [0#11, 0x400#11], ∀ j ∈ [0#2, 3#2], let s := gathering c p0 j 1#32 0#32
    s.fb.wf = true ∧ s.fcnt.toNat < frameSize s.ctrl ∧ goesOn (exec .eos s) = true := by decide

/-- The shortest and the longest LIVE frame. -/
theorem witness_DecodeLiveFields :
    ((0x600#11).getLsbD 8 = false ∧ 0 = (0x600#11).toNat % 256 ∧ (List.replicate 12 0#8).length = 12 + 2 * 0) ∧
    ((0x6FF#11).getLsbD 8 = false ∧ 255 = (0x6FF#11).toNat % 256 ∧ (List.replicate 522 1#8).length = 12 + 2 * 255) :=
  ⟨⟨by decide, by decide, List.length_replicate⟩, by decide, by decide, List.length_replicate⟩

theorem witness_DecodeLegacy36Fields : (0x100#11).getLsbD 8 = true ∧ (List.replicate 36 1#8).length = 36 := by decide

theorem witness_DeserializerRoundTrip : ∃ r x : FrameRecord, r.ch16.length = 1 ∧ r.ext32 = [] ∧ x.ext32.length = 4 ∧ x.ch16.length = 4 :=
  ⟨decodeLive 1 (List.replicate 14 1#8), decodeLegacy36 (List.replicate 36 1#8), by decide⟩

/-! #### States that meet the invariant, every phase of both modes -/

theorem inv_hunt : (hunt 0x200#11 3#2 7#32).Inv := by constructor <;> decide
theorem inv_collect : (gathering 0#11 p0 0#2 0#32 13#32).Inv := by constructor <;> decide
theorem inv_preamble : (hunt 0x400#11 3#2 7#32).Inv := by constructor <;> decide
theorem inv_session : (gathering 0x400#11 p0 3#2 1#32 18#32).Inv := by constructor <;> decide
theorem inv_closed : closedState.Inv := by constructor <;> decide
theorem inv_awaiting_feed : (awaiting 0x1000001B#32 (gathering 0x400#11 p0 3#2 1#32 18#32)).Inv := by constructor <;> decide
theorem inv_closed_awaiting : (awaiting 0x10000001#32 closedState).Inv := by constructor <;> decide

theorem witness_EveryStepCompletesAndKeepsTheInvariant :
    (awaiting 0x1000001B#32 (gathering 0x400#11 p0 3#2 1#32 18#32)).Inv ∧ (awaiting 0x10000001#32 closedState).Inv :=
  ⟨inv_awaiting_feed, inv_closed_awaiting⟩

theorem witness_EveryInstructionCompletes : (hunt 0x200#11 3#2 7#32).Inv ∧ (gathering 0#11 p0 0#2 0#32 13#32).Inv ∧
    (hunt 0x400#11 3#2 7#32).Inv ∧ (gathering 0x400#11 p0 3#2 1#32 18#32).Inv ∧ closedState.Inv :=
  ⟨inv_hunt, inv_collect, inv_preamble, inv_session, inv_closed⟩

theorem witness_HeldBytesAreBounded : ((gathering 0#11 p0 0#2 0#32 13#32).Inv ∧ isOffline 0#11 = false) ∧
    (gathering 0x400#11 p0 3#2 1#32 18#32).Inv ∧ isOffline 0x400#11 = true :=
  ⟨⟨inv_collect, rfl⟩, inv_session, rfl⟩

theorem witness_EventsOfOneToken : (gathering 0x400#11 p0 3#2 1#32 18#32).Inv ∧
    exec (.feed 0xA5#8) (gathering 0x400#11 p0 3#2 1#32 18#32) =
      .next (after (exec (.feed 0xA5#8) (gathering 0x400#11 p0 3#2 1#32 18#32))) :=
  ⟨inv_session, next_after (by decide)⟩

theorem witness_BytesAreConserved : let s := awaiting 0x1000001B#32 (gathering 0x400#11 p0 3#2 1#32 18#32)
    s.Inv ∧ s.bytesIn = accountedBytes s ∧ step s = .next (after (step s)) :=
  ⟨inv_awaiting_feed, by decide, next_after (by decide)⟩

theorem witness_DiscardedBytesAreReported : let s := awaiting 0x1000001B#32 (gathering 0x400#11 p0 3#2 1#32 18#32)
    step s = .next (after (step s)) ∧ s.restarts = false ∧ isOffline s.ctrl = true :=
  ⟨next_after (by decide), by decide, by decide⟩

/-- With a RESYNC among the events. -/
theorem witness_CountersCountTheirEvents : let s := awaiting 0x10000055#32 (hunt 0#11 1#2 2#32)
    step s = .next (after (step s)) ∧ s.restarts = false ∧ isOffline s.ctrl = false ∧ (after (step s)).output = [.resync 2#32] :=
  ⟨next_after (by decide), by decide, by decide, by decide⟩

theorem witness_ModesDoNotMix :
    (let s := awaiting 0x10000055#32 (hunt 0#11 1#2 2#32);
      step s = .next (after (step s)) ∧ s.restarts = false ∧ isOffline s.ctrl = false) ∧
    (let s := awaiting 0x1000001B#32 (gathering 0x400#11 p0 3#2 1#32 18#32);
      step s = .next (after (step s)) ∧ s.restarts = false ∧ isOffline s.ctrl = true) :=
  ⟨⟨next_after (by decide), by decide, by decide⟩, next_after (by decide), by decide, by decide⟩

theorem witness_DecodeFailureIsNeverEmitted : let s := awaiting 0x60000000#32 closedState
    step s = .next (after (step s)) := next_after (by decide)

theorem witness_FlagsAreSticky : (awaiting 0x40000000#32 closedState).restarts = true ∧
    ({ closedState with input := [.reset] } : State).restarts = true := by decide

/-- The flags that stay set, each set. -/
theorem witness_FlagsAreSticky_set : let s : State := awaiting 0#32 { closedState with
      errCfg := true, errIllegal := true, errAfterClose := true, nomarker := true }
    step s = .next (after (step s)) ∧ s.restarts = false ∧ s.errCfg = true ∧ s.errIllegal = true ∧
    s.errAfterClose = true ∧ s.nomarker = true ∧ s.locked = true :=
  ⟨next_after (by decide), by decide⟩

theorem witness_ClosedIsTerminal : let s := awaiting 0x10000001#32 closedState
    s.Inv ∧ s.phase = .closed ∧ step s = .next (after (step s)) ∧ s.restarts = false :=
  ⟨inv_closed_awaiting, rfl, next_after (by decide), by decide⟩

theorem witness_OnlyCfgWriteChangesCtrl : (after (step (awaiting 0x30000005#32 State.reset))).ctrl ≠ State.reset.ctrl ∧
    (after (step { hunt 1#11 0#2 0#32 with input := [.reset] })).ctrl ≠ (hunt 1#11 0#2 0#32).ctrl := by decide

theorem witness_EventsAreOnlyAppended : Sys2Proof.core.run 1 (awaiting 0#32 State.reset) = .next State.reset := rfl

theorem witness_StaleBytesAreNeverRead : ∃ s t : State, s.fb.wf = true ∧ t.fb.wf = true ∧ sameButStaleBytes s t ∧ s ≠ t :=
  ⟨gathering 0#11 [1#8] 0#2 0#32 0#32, { gathering 0#11 [1#8] 0#2 0#32 0#32 with fb := [(0, 1#8), (5, 9#8)] },
   by decide, by decide, ⟨rfl, by decide⟩, by decide⟩

theorem witness_BootOrderCausesNoError : ∃ s : State, s.Inv ∧ s.locked = false ∧ HostStage.configure.obeys s.input = true ∧ 4 ≤ s.input.length :=
  ⟨{ State.reset with input := [.token 0x30000001#32, .token 0x100000AA#32, .token 0x50000002#32, .token 0x20000000#32] },
   by constructor <;> decide, rfl, by decide, by decide⟩

theorem witness_EosEndsTheRun : (hunt 0x200#11 3#2 7#32).Inv ∧ (hunt 0x200#11 3#2 7#32).runEnded = false :=
  ⟨inv_hunt, rfl⟩

theorem witness_OfflineRunIsTheBatchDefinition : isOffline 0x400#11 = true := rfl

theorem witness_LiveFramesAreThoseOfTheDocumentLoop : isOffline 0x3FF#11 = false := rfl

theorem witness_LiveRunTakesTheFirstMarkers : isOffline 0x2FF#11 = false ∧ [0xAA#8].length < 2 ^ 32 := by decide

theorem witness_StreamWithoutMarkerGivesNothing : isOffline 0#11 = false ∧ firstMarker (marker 0#11) [0#8, 0xAA#8] = none := by decide

theorem witness_GarbageThenFrameDecodesOnce : let g := [0#8, 0xAA#8]; let p := List.replicate 12 0xAA#8
    isOffline 0#11 = false ∧ [g ++ marker 0#11, [], p].flatten = g ++ marker 0#11 ++ p ∧ p.length = frameSize 0#11 ∧
    firstMarker (marker 0#11) (g ++ marker 0#11) = some g.length ∧ g.length < 2 ^ 32 := by decide

end Sys2Proof.Tests
end

section
/-! SUPPORT. Decoding through the rows (30_encoding.md R85 to R92): a token has the opcode of its row, so it belongs to
one row only, and it decodes to the instruction of that row. -/

namespace Sys2Proof

/-! ### The rows and the opcode -/

@[simp] theorem instrOf_op (t : Token) (o : Op) : (instrOf t o).op = o := by
  cases o <;> rfl

theorem mem_rows {r : Row} : r ∈ rows ↔ ∃ o, rowOf o = r := by
  constructor
  · intro h
    obtain ⟨o, -, ho⟩ := List.mem_map.1 h
    exact ⟨o, ho⟩
  · rintro ⟨o, rfl⟩
    cases o <;> decide

theorem mask_opcode (o : Op) : (rowOf o).mask.extractLsb' 28 4 = 0xF#4 := by
  cases o <;> decide

theorem pattern_opcode (o : Op) : (rowOf o).pattern.extractLsb' 28 4 = o.code := by
  cases o <;> decide

/-- A token of a row has the row's opcode in its top bits (30_encoding.md R85). -/
theorem opcode_of_admits {o : Op} {t : Token} (h : (rowOf o).admits t = true) : t.extractLsb' 28 4 = o.code := by
  have h := congrArg (BitVec.extractLsb' 28 4) (beq_iff_eq.1 h)
  rw [BitVec.extractLsb'_and, mask_opcode, pattern_opcode] at h
  rw [← h]
  exact (BitVec.and_allOnes).symm

theorem code_injective : ∀ a b : Op, a.code = b.code → a = b := by
  intro a b
  cases a <;> cases b <;> decide

/-- A token belongs to at most one row (30_encoding.md R92). -/
theorem op_eq_of_admits {a b : Op} {t : Token} (ha : (rowOf a).admits t = true) (hb : (rowOf b).admits t = true) :
    a = b :=
  code_injective a b ((opcode_of_admits ha).symm.trans (opcode_of_admits hb))

/-- Decoding reads the operand of the one row the token belongs to (30_encoding.md R92). -/
theorem decodeRow_eq_some {t : Token} {i : Instr} :
    decodeRow t = some i ↔ (rowOf i.op).admits t = true ∧ instrOf t i.op = i := by
  rw [decodeRow]
  constructor
  · intro h
    obtain ⟨r, hr, rfl⟩ := Option.map_eq_some_iff.1 h
    obtain ⟨o, rfl⟩ := mem_rows.1 (List.mem_of_find?_eq_some hr)
    have : (rowOf o).op = o := rfl
    simpa [this] using List.find?_some hr
  · rintro ⟨ha, hi⟩
    cases hf : rows.find? (·.admits t) with
    | none => exact absurd ha (by simpa using List.find?_eq_none.1 hf _ (mem_rows.2 ⟨i.op, rfl⟩))
    | some r =>
      obtain ⟨o, rfl⟩ := mem_rows.1 (List.mem_of_find?_eq_some hf)
      have ho := List.find?_some hf
      obtain rfl : o = i.op := op_eq_of_admits ho ha
      exact congrArg some hi

theorem decodeWith_eq_some {off : Bool} {t : Token} {i : Instr} :
    decodeWith off t = some i ↔ ((rowOf i.op).admits t = true ∧ instrOf t i.op = i) ∧ i.wfWith off = true := by
  rw [decodeWith, Option.filter_eq_some_iff, decodeRow_eq_some]

theorem decode_eq_restart {t : Token} : decode t = some .restart ↔ t = 0x40000000#32 := by
  constructor
  · intro h
    obtain ⟨⟨ha, -⟩, -⟩ := decodeWith_eq_some.1 h
    rw [Instr.op, rowOf_restart, Row.admits, beq_iff_eq] at ha
    exact BitVec.and_allOnes.symm.trans ha
  · rintro rfl
    decide

/-- A CFG_WRITE token that sets `MODE` is illegal without the offline unit (30_encoding.md R92). -/
theorem decodeWith_false_cfgWrite {v : Ctrl} (h : v.getLsbD 10 = true) :
    decodeWith false (encode (.cfgWrite v)) = none := by
  rw [decodeWith, decodeRow_eq_some.2 (Laws.EncodedRow.cfgWrite v), Option.filter_some, wfWith_cfgWrite, h]
  rfl

end Sys2Proof
end

section
/-! SUPPORT. Every operation completes from a state with the invariant, and keeps it (10_state.md R29, R31, R43). -/

namespace Sys2Proof.Machine

variable {s : State}

/-! ### Resets, errors and phases -/

theorem Phase.eq_collect {p : Phase} (hh : p ≠ .hunt) (hc : p ≠ .closed) : p = .collect := by
  cases p <;> simp_all

theorem Phase.eq_hunt {p : Phase} (hs : p ≠ .collect) (hc : p ≠ .closed) : p = .hunt := by
  cases p <;> simp_all

/-- Nothing but `CTRL`, `ERR_ILLEGAL` and the ports away from reset meets the invariant (10_state.md R48). -/
theorem inv_of_unlocked (c : Ctrl) (e : Bool) (i : List Input) (o : List Event) :
    State.Inv { State.reset with ctrl := c, errIllegal := e, input := i, output := o } := by
  have := frameSize_ge c
  have := markerWidth_cases c
  constructor <;> simp [State.reset] <;> omega

/-- `raise` keeps the invariant where each error is raised: only ILLEGAL_TOKEN while unlocked, and AFTER_CLOSE in
CLOSED (60_exceptions.md R232). -/
theorem State.Inv.raise (h : s.Inv) {e : ErrorKind} (w : Token) (hl : s.locked = true ∨ e = .illegalToken)
    (hc : e = .afterClose → s.phase = .closed) : (raiseError e w s).Inv where
  fbCanonical := by simpa using h.fbCanonical
  fcntBelow := by simpa using h.fcntBelow
  huntEmpty := by simpa using h.huntEmpty
  liveHunt := by simpa using h.liveHunt
  liveCollect := by simpa using h.liveCollect
  collectGap := by simpa using h.collectGap
  closedEmpty := by simpa using h.closedEmpty
  liveQuiet := by simpa using h.liveQuiet
  offlineQuiet := by simpa using h.offlineQuiet
  preamble := by simpa using h.preamble
  unlocked hu := by
    rw [raiseError_locked] at hu
    obtain rfl : e = .illegalToken := hl.resolve_left (by simp [hu])
    conv_lhs => rw [h.unlocked hu]
    rfl
  closedFlags hf := by
    have := h.closedFlags
    simp at hf ⊢
    tauto

/-- CLOSED is reached only once locked. -/
theorem State.Inv.locked_of_closed (h : s.Inv) (hp : s.phase = .closed) : s.locked = true := by
  by_contra hl
  exact h.open_of_unlocked (by simpa using hl) hp

/-! ### The live synchronizer -/

theorem feedLiveHunt_acquires {b : Byte} (h : (marker s.ctrl).take s.j.toNat ++ [b] = marker s.ctrl) :
    feedLiveHunt b s = { reportGap s with phase := .collect, j := 0#2, fcnt := 0#10 } := by
  simp [feedLiveHunt, h]

/-- Where the marker is not complete, all but its first `k` bytes are given up, with `k` below `W` (41_live_sync.md
R141, R143). -/
theorem feedLiveHunt_discards {b : Byte} (hj : s.j.toNat < markerWidth s.ctrl)
    (h : (marker s.ctrl).take s.j.toNat ++ [b] ≠ marker s.ctrl) :
    ∃ k, k < markerWidth s.ctrl ∧ k ≤ s.j.toNat + 1 ∧ feedLiveHunt b s = { s with
      gap := s.gap + BitVec.ofNat 32 (s.j.toNat + 1 - k)
      discarded := s.discarded + BitVec.ofNat 32 (s.j.toNat + 1 - k), j := BitVec.ofNat 2 k } := by
  have hl : ((marker s.ctrl).take s.j.toNat ++ [b]).length = s.j.toNat + 1 := by simp; omega
  refine ⟨_, keep_lt (marker_ne_nil s.ctrl) ((marker s.ctrl).take s.j.toNat ++ [b]), hl ▸ keep_le_length _ _, ?_⟩
  simp only [feedLiveHunt, if_neg h, hl]

theorem feedLiveHunt_keeps (b : Byte) (h : s.Inv) (ho : isOffline s.ctrl = false) (hl : s.locked = true)
    (hp : s.phase = .hunt) : (feedLiveHunt b s).Inv := by
  have h12 := frameSize_ge s.ctrl
  have hq := h.liveQuiet ho
  have hcf := h.closedFlags
  by_cases hm : (marker s.ctrl).take s.j.toNat ++ [b] = marker s.ctrl
  · rw [feedLiveHunt_acquires hm, reportGap]
    split <;> constructor <;> simp_all [h.fbCanonical] <;> omega
  · obtain ⟨k, hk, -, he⟩ := feedLiveHunt_discards (h.liveHunt ho hp) hm
    rw [he]
    constructor <;> simp_all [h.fbCanonical, h.huntEmpty hp] <;> omega

theorem feedLiveCollect_keeps (b : Byte) (h : s.Inv) (ho : isOffline s.ctrl = false) (hl : s.locked = true)
    (hp : s.phase = .collect) : ∃ t, feedLiveCollect b s = .ok t ∧ t.Inv := by
  have hle := frameSize_le s.ctrl
  have h12 := frameSize_ge s.ctrl
  have hW := markerWidth_cases s.ctrl
  have hq := h.liveQuiet ho
  have hcf := h.closedFlags
  have hf := h.fcntBelow
  have hg := h.collectGap hp
  have hj := h.liveCollect ho hp
  have hw := Memory.write_wf h.fbCanonical (a := s.fcnt.toNat) (by simp; omega) b
  refine ⟨_, feedLiveCollect_ok b h.fbCanonical hf, ?_⟩
  split
  · constructor <;> simp_all <;> omega
  · have hs := fcnt_succ hf hle
    have : (s.fcnt + 1).toNat < frameSize s.ctrl := by omega
    constructor <;> simp_all

theorem eosLive_keeps (h : s.Inv) (ho : isOffline s.ctrl = false) (hl : s.locked = true) : (eosLive s).Inv := by
  have h12 := frameSize_ge s.ctrl
  have hq := h.liveQuiet ho
  constructor <;> simp_all [eosLive, h.fbCanonical]
  omega

/-! ### The offline detector -/

theorem feedOfflineA5_keeps (h : s.Inv) (ho : isOffline s.ctrl = true) (hl : s.locked = true)
    (hp : s.phase ≠ .closed) : (feedOfflineA5 s).Inv := by
  have h12 := frameSize_ge s.ctrl
  have hq := h.offlineQuiet ho
  have hcf := h.closedFlags
  rcases feedOfflineA5_cases s with ⟨k, he⟩ | ⟨-, he⟩ | ⟨-, he⟩ <;> rw [he]
  · have hf := h.fcntBelow
    have hu := h.huntEmpty
    have hg := h.collectGap
    have hpre := h.preamble ho
    constructor <;> simp_all [h.fbCanonical]
  all_goals constructor <;> simp_all [h.fbCanonical]; omega

theorem endCapture_keeps (h : s.Inv) (ho : isOffline s.ctrl = true) (hl : s.locked = true) (hj : s.j = 0#2)
    (hp : s.phase ≠ .closed) : (endCapture s).Inv := by
  have h12 := frameSize_ge s.ctrl
  have hq := h.offlineQuiet ho
  rcases endCapture_cases s with ⟨-, he⟩ | ⟨hc, he⟩ <;> rw [he]
  · constructor <;> simp_all [h.fbCanonical]
    omega
  · have hh := Phase.eq_hunt hc hp
    have := h.huntEmpty hh
    constructor <;> simp_all [h.fbCanonical]
    omega

/-! ### FEED and EOS by the unit that takes them -/

theorem feedUnit_keeps (b : Byte) (h : s.Inv) (hl : s.locked = true) (hp : s.phase ≠ .closed) :
    ∃ t, feedUnit b s = .ok t ∧ t.Inv := by
  cases ho : isOffline s.ctrl
  · by_cases hh : s.phase = .hunt
    · exact ⟨_, feedUnit_hunt b ho hh, feedLiveHunt_keeps b h ho hl hh⟩
    · rw [feedUnit_collect b ho hh]
      exact feedLiveCollect_keeps b h ho hl (Phase.eq_collect hh hp)
  · by_cases hb : b = 0xA5#8
    · subst hb
      exact ⟨_, feedUnit_a5 ho, feedOfflineA5_keeps h ho hl hp⟩
    · rw [feedUnit_other ho hb]
      exact commitAll_keeps (h.noPending ho hl) ho hl hp

theorem eosUnit_keeps (h : s.Inv) (hl : s.locked = true) (hp : s.phase ≠ .closed) :
    ∃ t, eosUnit s = .ok t ∧ t.Inv := by
  cases ho : isOffline s.ctrl
  · exact ⟨_, eosUnit_live ho, eosLive_keeps h ho hl⟩
  · obtain ⟨u, hu, hi⟩ :=
      commitAll_keeps (bs := List.replicate s.j.toNat Config.sessionByte) (h.noPending ho hl) ho hl hp
    obtain ⟨hctrl, hphase, hj, hlocked, -⟩ := commitAll_fields hu
    refine ⟨endCapture u, by rw [eosUnit_offline ho, eosOffline, hu]; rfl, endCapture_keeps hi ?_ ?_ hj ?_⟩
    · rw [hctrl]; exact ho
    · rw [hlocked]; exact hl
    · rw [hphase]; exact hp

/-- Settles O33, by the operation each instruction runs. -/
theorem everyInstructionCompletes : Obligations.EveryInstructionCompletes := by
  intro i s h
  cases i with
  | nop => exact ⟨s, rfl, h⟩
  | read a => exact ⟨_, rfl, h.emit _⟩
  | restart => exact ⟨_, rfl, inv_of_unlocked s.ctrl false s.input s.output⟩
  | cfgWrite v =>
    refine ⟨_, rfl, ?_⟩
    rw [cfgWriteWith, if_neg (by simp)]
    split
    · next hl => exact h.raise _ (.inl hl) (by simp)
    · next hl =>
      rw [h.unlocked (by simpa using hl)]
      exact inv_of_unlocked v s.errIllegal s.input s.output
  | feed b =>
    by_cases hp : s.phase = .closed
    · exact ⟨_, exec_feed_closed b hp, h.raise _ (.inl (h.locked_of_closed hp)) fun _ => hp⟩
    · obtain ⟨t, ht, hi⟩ := feedUnit_keeps b h.fed rfl hp
      exact ⟨t, by rw [exec_feed_open b hp, ht]; rfl, hi⟩
  | eos =>
    by_cases hp : s.phase = .closed
    · exact ⟨_, exec_eos_closed hp, h.raise _ (.inl (h.locked_of_closed hp)) fun _ => hp⟩
    · obtain ⟨t, ht, hi⟩ := eosUnit_keeps h.ended rfl hp
      exact ⟨t, by rw [exec_eos_open hp, ht]; rfl, hi⟩

/-- Settles O32: what is taken from the input is nothing, the reset input, an illegal token or an instruction. -/
theorem everyStepCompletesAndKeepsTheInvariant : Obligations.EveryStepCompletesAndKeepsTheInvariant := by
  intro s h
  match hi : s.input with
  | [] => exact ⟨s, step_idle hi, h⟩
  | .reset :: rest => exact ⟨_, step_reset hi, inv_of_unlocked 0#11 false rest s.output⟩
  | .token w :: rest =>
    rw [step_token hi, runToken]
    cases decode w with
    | none => exact ⟨_, rfl, (h.withInput rest).raise w (.inr rfl) (by simp)⟩
    | some i => exact everyInstructionCompletes i _ (h.withInput rest)

end Sys2Proof.Machine
end

section
/-! SUPPORT. What an operation of the units leaves alone or counts is shown once per operation: the relations that every
operation meets, and what a step that does not begin again can then do (10_state.md R47). -/

namespace Sys2Proof.Machine

variable {R : State → State → Prop} {s t : State}

/-- A relation that composes and that every operation of the units, but FEED in live HUNT, meets: what two states of
one operation have in common is shown of it once per operation (41_live_sync.md R144, R145, 42_offline_splitter.md R176
to R180). -/
structure UnitRelation (R : State → State → Prop) : Prop where
  refl : ∀ s, R s s
  trans : ∀ {s t u}, R s t → R t u → R s u
  /-- The pending bytes are taken up. -/
  pending : ∀ s, R s { s with j := 0#2 }
  collect : ∀ {b s t}, feedLiveCollect b s = .ok t → R s t
  commit : ∀ {x s t}, commit x s = .ok t → R s t
  markerByte : ∀ s, R s (feedOfflineA5 s)
  closeLive : ∀ s, R s (eosLive s)
  closeCapture : ∀ s, R s (endCapture s)

theorem UnitRelation.commitAll (hR : UnitRelation R) {bs : List Byte} (h : commitAll bs s = .ok t) : R s t :=
  commitAll_induction hR.refl hR.trans hR.commit h

/-- FEED (43_control_ops.md R206) is FEED in live HUNT, or within the relation. -/
theorem UnitRelation.feedUnit (hR : UnitRelation R) {b : Byte} (h : feedUnit b s = .ok t) :
    t = feedLiveHunt b s ∨ R s t := by
  rcases feedUnit_cases h with ⟨-, -, rfl⟩ | ⟨-, -, hc⟩ | ⟨-, -, rfl⟩ | ⟨-, -, hc⟩
  · exact .inl rfl
  · exact .inr (hR.collect hc)
  · exact .inr (hR.markerByte s)
  · exact .inr (hR.trans (hR.pending s) (hR.commitAll hc))

/-- EOS (43_control_ops.md R207). -/
theorem UnitRelation.eosUnit (hR : UnitRelation R) (h : eosUnit s = .ok t) : R s t := by
  rcases eosUnit_cases h with ⟨-, rfl⟩ | ⟨-, u, hc, rfl⟩
  · exact hR.closeLive s
  · exact hR.trans (hR.pending s) (hR.trans (hR.commitAll hc) (hR.closeCapture u))

/-- A relation that also the control operations but RESTART, the prologues and the taking of an input meet. -/
structure StepRelation (R : State → State → Prop) : Prop extends UnitRelation R where
  input : ∀ s rest, R s { s with input := rest }
  read : ∀ s a v, R s (emit (.readData a v) s)
  raise : ∀ s e w, R s (raiseError e w s)
  cfgWrite : ∀ s v, R s { s with ctrl := v }
  fed : ∀ s, R s s.fed
  ended : ∀ s, R s s.ended

theorem StepRelation.exec (hR : StepRelation R) {i : Instr} (h : exec i s = .next t) (hi : i ≠ .restart) :
    (∃ b u, R s u ∧ t = feedLiveHunt b u) ∨ R s t := by
  rcases exec_cases h with ⟨-, rfl⟩ | ⟨a, -, rfl⟩ | ⟨rfl, -⟩ | ⟨v, -, -, rfl⟩ | ⟨v, -, -, rfl⟩ | ⟨-, -, rfl⟩ |
    ⟨b, -, -, hu⟩ | ⟨-, -, hu⟩
  · exact .inr (hR.refl _)
  · exact .inr (hR.read s a _)
  · exact absurd rfl hi
  · exact .inr (hR.cfgWrite s v)
  · exact .inr (hR.raise s _ _)
  · exact .inr (hR.raise s _ _)
  · exact (hR.feedUnit hu).imp (fun h => ⟨b, _, hR.fed s, h⟩) (hR.trans (hR.fed s))
  · exact .inr (hR.trans (hR.ended s) (hR.eosUnit hu))

/-- What a step that does not begin again takes from the input: nothing, an illegal token, or an instruction but
RESTART. -/
theorem step_cases_of_not_restarts (h : step s = .next t) (hr : s.restarts = false) :
    (s.input = [] ∧ t = s) ∨
    ∃ w rest, s.input = .token w :: rest ∧
      ((decode w = none ∧ t = raiseError .illegalToken w { s with input := rest }) ∨
        ∃ i, i ≠ .restart ∧ decode w = some i ∧ exec i { s with input := rest } = .next t) := by
  rcases step_cases h with ⟨hi, rfl⟩ | ⟨rest, hi, -⟩ | ⟨w, rest, hi, hd, rfl⟩ | ⟨w, rest, i, hi, hd, he⟩
  · exact .inl ⟨hi, rfl⟩
  · simp [State.restarts, hi] at hr
  · exact .inr ⟨w, rest, hi, .inl ⟨hd, rfl⟩⟩
  · refine .inr ⟨w, rest, hi, .inr ⟨i, ?_, hd, he⟩⟩
    rintro rfl
    simp [State.restarts, hi, hd] at hr

/-- A step that does not begin again ends with FEED in live HUNT, or is within the relation. -/
theorem StepRelation.step (hR : StepRelation R) (h : step s = .next t) (hr : s.restarts = false) :
    (∃ b u, R s u ∧ t = feedLiveHunt b u) ∨ R s t := by
  rcases step_cases_of_not_restarts h hr with ⟨-, rfl⟩ | ⟨w, rest, -, ⟨-, rfl⟩ | ⟨i, hi, -, he⟩⟩
  · exact .inr (hR.refl t)
  · exact .inr (hR.trans (hR.input s rest) (hR.raise _ _ w))
  · exact (hR.exec he hi).imp (fun ⟨b, u, hu, hf⟩ => ⟨b, u, hR.trans (hR.input s rest) hu, hf⟩)
      (hR.trans (hR.input s rest))

/-! ### What no unit changes -/

/-- The elements that only the prologues and the control operations change; `NOMARKER` is only set. -/
structure KeepsControl (s t : State) : Prop where
  ctrl : t.ctrl = s.ctrl
  locked : t.locked = s.locked
  errCfg : t.errCfg = s.errCfg
  errIllegal : t.errIllegal = s.errIllegal
  errAfterClose : t.errAfterClose = s.errAfterClose
  bytesIn : t.bytesIn = s.bytesIn
  nomarker : s.nomarker = true → t.nomarker = true

theorem feedLiveHunt_keepsControl (b : Byte) (s : State) : KeepsControl s (feedLiveHunt b s) := by
  rcases feedLiveHunt_cases b s with ⟨-, he⟩ | ⟨-, he⟩ | ⟨d, k, he⟩ <;> rw [he] <;> constructor <;> simp

theorem unitRelation_keepsControl : UnitRelation KeepsControl where
  refl s := by constructor <;> simp
  trans h1 h2 := ⟨h2.ctrl.trans h1.ctrl, h2.locked.trans h1.locked, h2.errCfg.trans h1.errCfg,
    h2.errIllegal.trans h1.errIllegal, h2.errAfterClose.trans h1.errAfterClose, h2.bytesIn.trans h1.bytesIn,
    fun hn => h2.nomarker (h1.nomarker hn)⟩
  pending s := by constructor <;> simp
  collect h := by rcases feedLiveCollect_cases h with rfl | ⟨r, rfl⟩ <;> constructor <;> simp
  commit h := by rcases commit_cases h with ⟨-, rfl⟩ | ⟨-, rfl⟩ | ⟨-, r, rfl⟩ <;> constructor <;> simp
  markerByte s := by
    rcases feedOfflineA5_cases s with ⟨k, he⟩ | ⟨-, he⟩ | ⟨-, he⟩ <;> rw [he] <;> constructor <;> simp
  closeLive s := by constructor <;> simp [eosLive]
  closeCapture s := by rcases endCapture_cases s with ⟨-, he⟩ | ⟨-, he⟩ <;> rw [he] <;> constructor <;> simp

theorem feedUnit_keepsControl {b : Byte} (h : feedUnit b s = .ok t) : KeepsControl s t := by
  rcases unitRelation_keepsControl.feedUnit h with rfl | hk
  · exact feedLiveHunt_keepsControl b s
  · exact hk

theorem eosUnit_keepsControl (h : eosUnit s = .ok t) : KeepsControl s t := unitRelation_keepsControl.eosUnit h

end Sys2Proof.Machine
end

section
/-! SUPPORT. The accounted bytes (10_state.md R49) under every operation: FEED accounts for one byte more, EOS
for none. -/

namespace Sys2Proof.Machine

variable {s : State}

/-! ### The accounted bytes in each phase (10_state.md R30, R49) -/

theorem accountedBytes_hunt (ho : isOffline s.ctrl = false) (hp : s.phase = .hunt) :
    accountedBytes s = s.frames * (markerWidth s.ctrl + frameSize s.ctrl) + s.discarded + s.j.toNat := by
  simp [accountedBytes_live ho, heldBytes, hp, ho, BitVec.ofNat_add]

theorem accountedBytes_collect (ho : isOffline s.ctrl = false) (hp : s.phase = .collect) :
    accountedBytes s = s.frames * (markerWidth s.ctrl + frameSize s.ctrl) + s.discarded
      + (markerWidth s.ctrl + s.fcnt.toNat) := by
  simp [accountedBytes_live ho, heldBytes, hp, ho, BitVec.ofNat_add]

theorem accountedBytes_liveClosed (ho : isOffline s.ctrl = false) (hp : s.phase = .closed) :
    accountedBytes s = s.frames * (markerWidth s.ctrl + frameSize s.ctrl) + s.discarded := by
  simp [accountedBytes_live ho, heldBytes, hp, BitVec.ofNat_add]

theorem accountedBytes_split (ho : isOffline s.ctrl = true) (hp : s.phase ≠ .closed) :
    accountedBytes s = 4 * s.sessions + s.frames * frameSize s.ctrl + s.discarded + (s.j.toNat + s.fcnt.toNat) := by
  rw [accountedBytes_offline ho]
  cases h : s.phase <;> simp_all [heldBytes, BitVec.ofNat_add]

theorem accountedBytes_splitClosed (ho : isOffline s.ctrl = true) (hp : s.phase = .closed) :
    accountedBytes s = 4 * s.sessions + s.frames * frameSize s.ctrl + s.discarded := by
  simp [accountedBytes_offline ho, heldBytes, hp]

/-- While nothing but `CTRL` and `ERR_ILLEGAL` is away from reset, no byte is accounted. -/
theorem accountedBytes_of_unlocked (c : Ctrl) (e : Bool) (i : List Input) (o : List Event) :
    accountedBytes { State.reset with ctrl := c, errIllegal := e, input := i, output := o } = 0#32 := by
  cases ho : isOffline c <;> simp [accountedBytes, heldBytes, State.reset, ho]

@[simp] theorem accountedBytes_raiseError (e : ErrorKind) (w : Token) (s : State) :
    accountedBytes (raiseError e w s) = accountedBytes s := by
  cases e <;> rfl

/-! ### FEED accounts for one byte more, EOS for none -/

/-- A counter of one more. -/
theorem natCast_succ_of_eq {n m : Nat} (h : n + 1 = m) : (m : Counter) = n + 1 := by
  rw [← h, Nat.cast_add, Nat.cast_one]

theorem reportGap_accounts (s : State) : (reportGap s).ctrl = s.ctrl ∧ (reportGap s).frames = s.frames ∧
    (reportGap s).discarded = s.discarded := by
  unfold reportGap
  split <;> simp

theorem feedLiveHunt_accounts (b : Byte) (h : s.Inv) (ho : isOffline s.ctrl = false) (hp : s.phase = .hunt) :
    accountedBytes (feedLiveHunt b s) = accountedBytes s + 1 := by
  have hj := h.liveHunt ho hp
  rw [accountedBytes_hunt ho hp]
  by_cases hm : (marker s.ctrl).take s.j.toNat ++ [b] = marker s.ctrl
  · have hlen : s.j.toNat + 1 = markerWidth s.ctrl := by simpa [hj.le] using congrArg List.length hm
    obtain ⟨hctrl, hframes, hdisc⟩ := reportGap_accounts s
    rw [feedLiveHunt_acquires hm, accountedBytes_collect (by simpa [hctrl] using ho) rfl]
    simp only [hctrl, hframes, hdisc, BitVec.toNat_ofNat, Nat.zero_mod, Nat.cast_zero]
    linear_combination natCast_succ_of_eq hlen
  · obtain ⟨k, hk, hle, he⟩ := feedLiveHunt_discards hj hm
    have hk2 : (BitVec.ofNat 2 k).toNat = k := by
      have := markerWidth_cases s.ctrl
      rw [BitVec.toNat_ofNat]
      omega
    have hsum : BitVec.ofNat 32 (s.j.toNat + 1 - k) + (k : Counter) = s.j.toNat + 1 := by
      rw [← BitVec.natCast_eq_ofNat, ← Nat.cast_add, Nat.sub_add_cancel hle, Nat.cast_add, Nat.cast_one]
    rw [he, accountedBytes_hunt (by exact ho) (by exact hp)]
    simp only [hk2]
    linear_combination hsum

theorem feedLiveCollect_accounts {b : Byte} {t : State} (h : s.Inv) (ho : isOffline s.ctrl = false)
    (hp : s.phase = .collect) (ht : feedLiveCollect b s = .ok t) : accountedBytes t = accountedBytes s + 1 := by
  rw [feedLiveCollect_ok b h.fbCanonical h.fcntBelow] at ht
  cases ht
  rw [accountedBytes_collect ho hp]
  split
  · next hlast =>
    rw [accountedBytes_hunt (by exact ho) (by rfl)]
    simp only [BitVec.toNat_ofNat, Nat.zero_mod, Nat.cast_zero]
    linear_combination natCast_succ_of_eq hlast
  · have hs := fcnt_succ h.fcntBelow (frameSize_le s.ctrl)
    rw [accountedBytes_collect (by exact ho) (by exact hp)]
    linear_combination natCast_succ_of_eq hs.symm

theorem eosLive_accounts (ho : isOffline s.ctrl = false) (hp : s.phase ≠ .closed) :
    accountedBytes (eosLive s) = accountedBytes s := by
  rw [accountedBytes_liveClosed (by exact ho) (by rfl)]
  cases hq : s.phase with
  | hunt => simp [accountedBytes_hunt ho hq, eosLive, hq, BitVec.add_assoc]
  | collect => simp [accountedBytes_collect ho hq, eosLive, hq, BitVec.add_assoc, BitVec.ofNat_add]
  | closed => exact absurd hq hp

theorem commit_accounts {x : Byte} {t : State} (h : s.Inv) (ho : isOffline s.ctrl = true) (hp : s.phase ≠ .closed)
    (ht : commit x s = .ok t) : accountedBytes t = accountedBytes s + 1 := by
  rw [accountedBytes_split ho hp]
  by_cases hh : s.phase = .hunt
  · rw [commit_preamble x hh] at ht
    cases ht
    rw [accountedBytes_split (by exact ho) (by exact hp)]
    ring
  · rw [commit_session x hh h.fbCanonical h.fcntBelow] at ht
    cases ht
    split
    · next hlast =>
      rw [accountedBytes_split (by exact ho) (by exact hp)]
      simp only [BitVec.toNat_ofNat, Nat.zero_mod, Nat.cast_zero]
      linear_combination natCast_succ_of_eq hlast
    · have hs := fcnt_succ h.fcntBelow (frameSize_le s.ctrl)
      rw [accountedBytes_split (by exact ho) (by exact hp)]
      linear_combination natCast_succ_of_eq hs.symm

theorem commit_mode {x : Byte} {t : State} (h : commit x s = .ok t) :
    t.ctrl = s.ctrl ∧ t.phase = s.phase ∧ t.locked = s.locked := by
  rcases commit_cases h with ⟨-, rfl⟩ | ⟨-, rfl⟩ | ⟨-, r, rfl⟩ <;> exact ⟨rfl, rfl, rfl⟩

theorem commitAll_accounts {bs : List Byte} : ∀ {s t : State}, s.Inv → isOffline s.ctrl = true → s.locked = true →
    s.phase ≠ .closed → commitAll bs s = .ok t → accountedBytes t = accountedBytes s + bs.length := by
  induction bs with
  | nil => intro s t _ _ _ _ ht; cases ht; simp
  | cons x bs ih =>
    intro s t h ho hl hp ht
    obtain ⟨u, hu, hi⟩ := commit_keeps x h ho hl hp
    obtain ⟨hctrl, hphase, hlocked⟩ := commit_mode hu
    rw [commitAll_cons, hu] at ht
    rw [ih hi (by rwa [hctrl]) (by rwa [hlocked]) (by rwa [hphase]) ht, commit_accounts h ho hp hu,
      List.length_cons, Nat.cast_add, Nat.cast_one]
    ring

/-- Taking up the pending `A5` bytes leaves them to be accounted for. -/
theorem accountedBytes_noPending (ho : isOffline s.ctrl = true) (hp : s.phase ≠ .closed) :
    accountedBytes { s with j := 0#2 } + s.j.toNat = accountedBytes s := by
  rw [accountedBytes_split ho hp, accountedBytes_split (by exact ho) (by exact hp)]
  simp only [BitVec.toNat_ofNat, Nat.zero_mod, Nat.cast_zero]
  ring

theorem feedOfflineA5_pending (h : s.j.toNat + 1 ≠ 4) :
    feedOfflineA5 s = { s with j := BitVec.ofNat 2 (s.j.toNat + 1) } := by
  simp [feedOfflineA5, h]

theorem startSession_session (hp : s.phase = .collect) : startSession s = { s with
    sessions := s.sessions + 1
    shortspans := if s.fcnt = 0#10 then s.shortspans else s.shortspans + 1
    discarded := s.discarded + s.fcnt.setWidth 32
    output := s.output ++ [.sessionEnd (s.sessions - 1) s.sframes (s.fcnt.setWidth 32), .sessionStart s.sessions s.gap]
    gap := 0#32, sframes := 0#32, fcnt := 0#10 } := by
  simp [startSession, closeSession, emit, hp]

theorem startSession_preamble (hp : s.phase ≠ .collect) : startSession s = { s with
    sessions := s.sessions + 1, output := s.output ++ [.sessionStart s.sessions s.gap]
    gap := 0#32, phase := .collect, sframes := 0#32, fcnt := 0#10 } := by
  simp [startSession, emit, hp]

/-- The counter of a session's tail bytes. -/
theorem setWidth_eq_natCast (n : BitVec 10) : n.setWidth 32 = (n.toNat : Counter) := by simp

/-- A session that begins accounts for its marker: the bytes held before become discarded or stay held. -/
theorem startSession_accounts (ho : isOffline s.ctrl = true) (hp : s.phase ≠ .closed)
    (hf : s.phase = .hunt → s.fcnt = 0#10) : accountedBytes (startSession s) = accountedBytes s + 4 := by
  rw [accountedBytes_split ho hp]
  cases hq : s.phase with
  | hunt =>
    rw [startSession_preamble (by simp [hq]), accountedBytes_split (by exact ho) (by simp), hf hq]
    ring
  | collect =>
    rw [startSession_session hq, accountedBytes_split (by exact ho) (by exact hp)]
    simp only [setWidth_eq_natCast, BitVec.toNat_ofNat, Nat.zero_mod, Nat.cast_zero]
    ring
  | closed => exact absurd hq hp

theorem feedOfflineA5_accounts (h : s.Inv) (ho : isOffline s.ctrl = true) (hp : s.phase ≠ .closed) :
    accountedBytes (feedOfflineA5 s) = accountedBytes s + 1 := by
  by_cases hj : s.j.toNat + 1 = 4
  · rw [feedOfflineA5, if_pos (by simpa using hj),
      startSession_accounts (by exact ho) (by exact hp) (by exact h.huntEmpty), ← accountedBytes_noPending ho hp]
    linear_combination natCast_succ_of_eq hj
  · have hj1 : (BitVec.ofNat 2 (s.j.toNat + 1)).toNat = s.j.toNat + 1 := by
      rw [BitVec.toNat_ofNat]
      omega
    rw [feedOfflineA5_pending hj, accountedBytes_split ho hp, accountedBytes_split (by exact ho) (by exact hp)]
    linear_combination natCast_succ_of_eq hj1.symm

theorem endCapture_accounts (h : s.Inv) (ho : isOffline s.ctrl = true) (hj : s.j = 0#2) (hp : s.phase ≠ .closed) :
    accountedBytes (endCapture s) = accountedBytes s := by
  rw [accountedBytes_split ho hp, hj]
  rcases endCapture_cases s with ⟨-, he⟩ | ⟨hc, he⟩ <;>
    rw [he, accountedBytes_splitClosed (by exact ho) (by rfl)]
  · simp
    ring
  · simp [h.huntEmpty (Phase.eq_hunt hc hp)]

/-! ### FEED and EOS by the unit that takes them -/

theorem feedUnit_accounts {b : Byte} {t : State} (h : s.Inv) (hl : s.locked = true) (hp : s.phase ≠ .closed)
    (ht : feedUnit b s = .ok t) : accountedBytes t = accountedBytes s + 1 := by
  rcases feedUnit_cases ht with ⟨ho, hh, rfl⟩ | ⟨ho, hh, hc⟩ | ⟨ho, -, rfl⟩ | ⟨ho, -, hc⟩
  · exact feedLiveHunt_accounts b h ho hh
  · exact feedLiveCollect_accounts h ho (Phase.eq_collect hh hp) hc
  · exact feedOfflineA5_accounts h ho hp
  · rw [commitAll_accounts (h.noPending ho hl) ho hl hp hc, ← accountedBytes_noPending ho hp]
    simp only [List.length_append, List.length_replicate, List.length_singleton, Nat.cast_add, Nat.cast_one]
    ring

theorem eosUnit_accounts {t : State} (h : s.Inv) (hl : s.locked = true) (hp : s.phase ≠ .closed)
    (ht : eosUnit s = .ok t) : accountedBytes t = accountedBytes s := by
  rcases eosUnit_cases ht with ⟨ho, rfl⟩ | ⟨ho, u, hc, rfl⟩
  · exact eosLive_accounts ho hp
  · have hi := h.noPending ho hl
    obtain ⟨hctrl, hphase, hj, -⟩ := commitAll_fields hc
    obtain ⟨u', hu', hiu⟩ := commitAll_keeps hi ho hl hp
    cases hc.symm.trans hu'
    rw [endCapture_accounts hiu (by rwa [hctrl]) hj (by rwa [hphase]), commitAll_accounts hi ho hl hp hc,
      List.length_replicate, accountedBytes_noPending ho hp]

end Sys2Proof.Machine
end

section
/-! SUPPORT. Steps: byte conservation, reported bytes, sticky flags, `CTRL` and the counters (10_state.md R35 to
R40, R47, R49). -/

namespace Sys2Proof.Machine

variable {s t : State}

/-! ### Byte conservation -/

theorem exec_accounts {i : Instr} (h : s.Inv) (hb : s.bytesIn = accountedBytes s) (ht : exec i s = .next t) :
    t.bytesIn = accountedBytes t := by
  rcases exec_cases ht with ⟨-, rfl⟩ | ⟨a, -, rfl⟩ | ⟨-, rfl⟩ | ⟨v, -, hl, rfl⟩ | ⟨v, -, -, rfl⟩ | ⟨-, -, rfl⟩ |
    ⟨b, -, hp, hu⟩ | ⟨-, hp, hu⟩
  · exact hb
  · exact hb
  · exact (accountedBytes_of_unlocked s.ctrl false s.input s.output).symm
  · rw [h.unlocked hl]
    exact (accountedBytes_of_unlocked v s.errIllegal s.input s.output).symm
  · simpa using hb
  · simpa using hb
  · rw [feedUnit_accounts h.fed rfl hp hu, (feedUnit_keepsControl hu).bytesIn]
    exact congrArg (· + 1) hb
  · rw [eosUnit_accounts h.ended rfl hp hu, (eosUnit_keepsControl hu).bytesIn]
    exact hb

/-- Settles O34: FEED adds one byte to both sides of the equation, and no other operation adds to either. -/
theorem bytesAreConserved : Obligations.BytesAreConserved := by
  intro s t h hb ht
  rcases step_cases ht with ⟨-, rfl⟩ | ⟨rest, -, rfl⟩ | ⟨w, rest, -, -, rfl⟩ | ⟨w, rest, i, -, -, he⟩
  · exact hb
  · exact (accountedBytes_of_unlocked 0#11 false rest s.output).symm
  · rw [raiseError_bytesIn, accountedBytes_raiseError]
    exact hb
  · exact exec_accounts (h.withInput rest) hb he

/-! ### Reported bytes -/

@[simp] theorem reportedBytes_append (es fs : List Event) :
    reportedBytes (es ++ fs) = reportedBytes es + reportedBytes fs := by
  simp [reportedBytes]

/-- The events between two states report what was added to `DISCARDED - GAP` (10_state.md R49). -/
def ReportsDiscarded (s t : State) : Prop :=
  ∃ es, t.output = s.output ++ es ∧ t.discarded - t.gap = s.discarded - s.gap + reportedBytes es

theorem feedLiveHunt_reports (b : Byte) (s : State) : ReportsDiscarded s (feedLiveHunt b s) := by
  rcases feedLiveHunt_cases b s with ⟨-, he⟩ | ⟨-, he⟩ | ⟨d, k, he⟩ <;> rw [he]
  · exact ⟨[], by simp [reportedBytes]⟩
  · exact ⟨[.resync s.gap], by simp [reportedBytes, Event.reported]⟩
  · exact ⟨[], by simp [reportedBytes]⟩

theorem stepRelation_reportsDiscarded : StepRelation ReportsDiscarded where
  refl s := ⟨[], by simp [reportedBytes]⟩
  trans := by
    rintro s t u ⟨es, ho, hd⟩ ⟨fs, ho', hd'⟩
    exact ⟨es ++ fs, by rw [ho', ho, List.append_assoc], by rw [hd', hd, reportedBytes_append, BitVec.add_assoc]⟩
  pending s := ⟨[], by simp [reportedBytes]⟩
  collect h := by
    rcases feedLiveCollect_cases h with rfl | ⟨r, rfl⟩
    · exact ⟨[], by simp [reportedBytes]⟩
    · exact ⟨[.frame 0#32 r], by simp [reportedBytes, Event.reported]⟩
  commit {x s t} h := by
    rcases commit_cases h with ⟨-, rfl⟩ | ⟨-, rfl⟩ | ⟨-, r, rfl⟩
    · exact ⟨[], by simp [reportedBytes]⟩
    · exact ⟨[], by simp [reportedBytes]⟩
    · exact ⟨[.frame (s.sessions - 1) r], by simp [reportedBytes, Event.reported]⟩
  markerByte s := by
    rcases feedOfflineA5_cases s with ⟨k, he⟩ | ⟨-, he⟩ | ⟨-, he⟩ <;> rw [he]
    · exact ⟨[], by simp [reportedBytes]⟩
    · exact ⟨[.sessionStart s.sessions s.gap], by simp [reportedBytes, Event.reported]⟩
    · refine ⟨[.sessionEnd (s.sessions - 1) s.sframes (s.fcnt.setWidth 32), .sessionStart s.sessions s.gap], rfl, ?_⟩
      simp [reportedBytes, Event.reported]
  closeLive s := by
    refine ⟨_, rfl, ?_⟩
    simp [eosLive, reportedBytes, Event.reported]
    ring
  closeCapture s := by
    rcases endCapture_cases s with ⟨-, he⟩ | ⟨-, he⟩ <;> rw [he]
    · refine ⟨_, rfl, ?_⟩
      simp [reportedBytes, Event.reported]
    · exact ⟨_, rfl, by simp [reportedBytes, Event.reported]⟩
  input s rest := ⟨[], by simp [reportedBytes]⟩
  read s a v := ⟨_, rfl, by simp [reportedBytes, Event.reported]⟩
  raise s e w := ⟨_, raiseError_output e w s, by simp [reportedBytes, Event.reported]⟩
  cfgWrite s v := ⟨[], by simp [reportedBytes]⟩
  fed s := ⟨[], by simp [reportedBytes]⟩
  ended s := ⟨[], by simp [reportedBytes]⟩

/-- Settles O35: each operation reports what it adds to `DISCARDED - GAP`. -/
theorem discardedBytesAreReported : Obligations.DiscardedBytesAreReported := by
  intro s t h hr
  rcases stepRelation_reportsDiscarded.step h hr with ⟨b, u, hu, rfl⟩ | ht
  · exact stepRelation_reportsDiscarded.trans hu (feedLiveHunt_reports b u)
  · exact ht

/-! ### Sticky flags and `CTRL` -/

/-- The sticky flags and `LOCKED` that are set stay set (10_state.md R47). -/
structure KeepsFlags (s t : State) : Prop where
  errCfg : s.errCfg = true → t.errCfg = true
  errIllegal : s.errIllegal = true → t.errIllegal = true
  errAfterClose : s.errAfterClose = true → t.errAfterClose = true
  nomarker : s.nomarker = true → t.nomarker = true
  locked : s.locked = true → t.locked = true

theorem KeepsControl.keepsFlags (h : KeepsControl s t) : KeepsFlags s t :=
  ⟨(h.errCfg ▸ ·), (h.errIllegal ▸ ·), (h.errAfterClose ▸ ·), h.nomarker, (h.locked ▸ ·)⟩

theorem exec_keepsFlags {i : Instr} (h : exec i s = .next t) (hi : i ≠ .restart) : KeepsFlags s t := by
  rcases exec_cases h with ⟨-, rfl⟩ | ⟨a, -, rfl⟩ | ⟨rfl, -⟩ | ⟨v, -, -, rfl⟩ | ⟨v, -, -, rfl⟩ | ⟨-, -, rfl⟩ |
    ⟨b, -, -, hu⟩ | ⟨-, -, hu⟩
  · exact ⟨id, id, id, id, id⟩
  · exact ⟨id, id, id, id, id⟩
  · exact absurd rfl hi
  · exact ⟨id, id, id, id, id⟩
  · constructor <;> simp_all
  · constructor <;> simp_all
  · have hk := (feedUnit_keepsControl hu).keepsFlags
    exact ⟨hk.errCfg, hk.errIllegal, hk.errAfterClose, hk.nomarker, fun _ => hk.locked rfl⟩
  · have hk := (eosUnit_keepsControl hu).keepsFlags
    exact ⟨hk.errCfg, hk.errIllegal, hk.errAfterClose, hk.nomarker, fun _ => hk.locked rfl⟩

theorem step_keepsFlags (h : step s = .next t) (hr : s.restarts = false) : KeepsFlags s t := by
  rcases step_cases_of_not_restarts h hr with ⟨-, rfl⟩ | ⟨w, rest, -, ⟨-, rfl⟩ | ⟨i, hi, -, he⟩⟩
  · exact ⟨id, id, id, id, id⟩
  · constructor <;> simp_all
  · obtain ⟨hcfg, hill, hclose, hno, hlocked⟩ := exec_keepsFlags he hi
    exact ⟨hcfg, hill, hclose, hno, hlocked⟩

/-- A step that begins again sets every element but `CTRL` to its reset value (70_reset_and_hazards.md R262). -/
theorem step_of_restarts (h : s.restarts = true) :
    ∃ c rest, step s = .next { State.reset with ctrl := c, input := rest, output := s.output } := by
  match hi : s.input with
  | [] => simp [State.restarts, hi] at h
  | .reset :: rest => exact ⟨0#11, rest, step_reset hi⟩
  | .token w :: rest =>
    have hd : decode w = some .restart := by simpa [State.restarts, hi] using h
    exact ⟨s.ctrl, rest, by rw [step_token hi, runToken, hd]; rfl⟩

/-- Settles O37: the units only set `NOMARKER`, the prologues `LOCKED`, and `raise` its own flag. -/
theorem flagsAreSticky : Obligations.FlagsAreSticky := by
  refine ⟨fun s t h hr => ?_, fun s hr => ?_⟩
  · obtain ⟨hcfg, hill, hclose, hno, hlocked⟩ := step_keepsFlags h hr
    exact ⟨hcfg, hill, hclose, hno, hlocked⟩
  · obtain ⟨c, rest, h⟩ := step_of_restarts hr
    exact ⟨_, h, rfl, rfl, rfl, rfl, rfl⟩

theorem exec_ctrl {i : Instr} (h : exec i s = .next t) :
    t.ctrl = s.ctrl ∨ ∃ v, i = .cfgWrite v ∧ s.locked = false ∧ t.ctrl = v := by
  rcases exec_cases h with ⟨-, rfl⟩ | ⟨a, -, rfl⟩ | ⟨-, rfl⟩ | ⟨v, hi, hl, rfl⟩ | ⟨v, -, -, rfl⟩ | ⟨-, -, rfl⟩ |
    ⟨b, -, -, hu⟩ | ⟨-, -, hu⟩
  · exact .inl rfl
  · exact .inl rfl
  · exact .inl rfl
  · exact .inr ⟨v, hi, hl, rfl⟩
  · exact .inl (by simp)
  · exact .inl (by simp)
  · exact .inl (feedUnit_keepsControl hu).ctrl
  · exact .inl (eosUnit_keepsControl hu).ctrl

/-- Settles O39, by what is taken from the input. -/
theorem onlyCfgWriteChangesCtrl : Obligations.OnlyCfgWriteChangesCtrl := by
  intro s t h hne
  rcases step_cases h with ⟨-, rfl⟩ | ⟨rest, hi, -⟩ | ⟨w, rest, -, -, rfl⟩ | ⟨w, rest, i, hi, hd, he⟩
  · exact absurd rfl hne
  · exact .inl ⟨rest, hi⟩
  · simp at hne
  · obtain ⟨v, rfl, hl, hv⟩ := (exec_ctrl he).resolve_left hne
    exact .inr ⟨w, rest, v, hi, hd, hl, hv⟩

/-! ### Counters -/

@[simp] theorem countEvents_append (p : Event → Bool) (es fs : List Event) :
    countEvents p (es ++ fs) = countEvents p es + countEvents p fs := by
  simp [countEvents, BitVec.ofNat_add]

/-- The counters count the events between two states (10_state.md R35, R36, R39). -/
structure CountsEvents (s t : State) (es : List Event) : Prop where
  output : t.output = s.output ++ es
  frames : t.frames = s.frames + countEvents Event.isFrame es
  resyncs : t.resyncs = s.resyncs + countEvents Event.isResync es
  sessions : t.sessions = s.sessions + countEvents Event.isSessionStart es

theorem CountsEvents.append {u : State} {es fs : List Event} (h : CountsEvents s t es) (h' : CountsEvents t u fs) :
    CountsEvents s u (es ++ fs) where
  output := by rw [h'.output, h.output, List.append_assoc]
  frames := by rw [h'.frames, h.frames, countEvents_append, BitVec.add_assoc]
  resyncs := by rw [h'.resyncs, h.resyncs, countEvents_append, BitVec.add_assoc]
  sessions := by rw [h'.sessions, h.sessions, countEvents_append, BitVec.add_assoc]

/-- The counters count the events between two states, and no RESYNC is among them. -/
def CountsWithoutResync (s t : State) : Prop :=
  ∃ es, CountsEvents s t es ∧ (∀ g, .resync g ∉ es) ∧ t.lastGap = s.lastGap

/-- Whether no counter counts an event. -/
def Event.isUncounted (e : Event) : Bool := !e.isFrame && !e.isResync && !e.isSessionStart

theorem countsWithoutResync_of_uncounted {es : List Event} (hu : es.all Event.isUncounted = true)
    (ho : t.output = s.output ++ es) (hf : t.frames = s.frames) (hr : t.resyncs = s.resyncs)
    (hs : t.sessions = s.sessions) (hg : t.lastGap = s.lastGap) : CountsWithoutResync s t := by
  simp only [List.all_eq_true, Event.isUncounted, Bool.and_eq_true, Bool.not_eq_true'] at hu
  have zero : ∀ p : Event → Bool, (∀ e ∈ es, p e = false) → countEvents p es = 0#32 := fun p hp => by
    rw [countEvents, List.countP_eq_zero.2 fun e he => by simp [hp e he]]
  refine ⟨es, ⟨ho, ?_, ?_, ?_⟩, fun g hm => ?_, hg⟩
  · rw [hf, zero _ fun e he => (hu e he).1.1, BitVec.add_zero]
  · rw [hr, zero _ fun e he => (hu e he).1.2, BitVec.add_zero]
  · rw [hs, zero _ fun e he => (hu e he).2, BitVec.add_zero]
  · simpa [Event.isResync] using (hu _ hm).1.2

/-- States with the same counters and trace. -/
theorem countsWithoutResync_of_eq (ho : t.output = s.output) (hf : t.frames = s.frames) (hr : t.resyncs = s.resyncs)
    (hs : t.sessions = s.sessions) (hg : t.lastGap = s.lastGap) : CountsWithoutResync s t :=
  countsWithoutResync_of_uncounted (es := []) rfl (by rw [ho, List.append_nil]) hf hr hs hg

theorem countsWithoutResync_of_frame {n : Counter} {r : FrameRecord} (ho : t.output = s.output ++ [.frame n r])
    (hf : t.frames = s.frames + 1) (hr : t.resyncs = s.resyncs) (hs : t.sessions = s.sessions)
    (hg : t.lastGap = s.lastGap) : CountsWithoutResync s t :=
  ⟨_, ⟨ho, hf, by rw [hr]; exact (BitVec.add_zero _).symm, by rw [hs]; exact (BitVec.add_zero _).symm⟩, by simp, hg⟩

theorem countsWithoutResync_of_sessionStart {n k : Counter} (ho : t.output = s.output ++ [.sessionStart n k])
    (hf : t.frames = s.frames) (hr : t.resyncs = s.resyncs) (hs : t.sessions = s.sessions + 1)
    (hg : t.lastGap = s.lastGap) : CountsWithoutResync s t :=
  ⟨_, ⟨ho, by rw [hf]; exact (BitVec.add_zero _).symm, by rw [hr]; exact (BitVec.add_zero _).symm, hs⟩, by simp, hg⟩

theorem CountsWithoutResync.trans {u : State} (h : CountsWithoutResync s t) (h' : CountsWithoutResync t u) :
    CountsWithoutResync s u := by
  obtain ⟨es, hc, hn, hg⟩ := h
  obtain ⟨fs, hc', hn', hg'⟩ := h'
  exact ⟨es ++ fs, hc.append hc', by simp [hn, hn'], hg'.trans hg⟩

theorem stepRelation_countsWithoutResync : StepRelation CountsWithoutResync where
  refl s := countsWithoutResync_of_eq rfl rfl rfl rfl rfl
  trans := CountsWithoutResync.trans
  pending s := countsWithoutResync_of_eq rfl rfl rfl rfl rfl
  collect h := by
    rcases feedLiveCollect_cases h with rfl | ⟨r, rfl⟩
    · exact countsWithoutResync_of_eq rfl rfl rfl rfl rfl
    · exact countsWithoutResync_of_frame rfl rfl rfl rfl rfl
  commit h := by
    rcases commit_cases h with ⟨-, rfl⟩ | ⟨-, rfl⟩ | ⟨-, r, rfl⟩
    · exact countsWithoutResync_of_eq rfl rfl rfl rfl rfl
    · exact countsWithoutResync_of_eq rfl rfl rfl rfl rfl
    · exact countsWithoutResync_of_frame rfl rfl rfl rfl rfl
  markerByte s := by
    rcases feedOfflineA5_cases s with ⟨k, he⟩ | ⟨-, he⟩ | ⟨-, he⟩ <;> rw [he]
    · exact countsWithoutResync_of_eq rfl rfl rfl rfl rfl
    · exact countsWithoutResync_of_sessionStart rfl rfl rfl rfl rfl
    · have hend : CountsWithoutResync s (emit (.sessionEnd (s.sessions - 1) s.sframes (s.fcnt.setWidth 32)) s) :=
        countsWithoutResync_of_uncounted rfl rfl rfl rfl rfl rfl
      exact hend.trans (countsWithoutResync_of_sessionStart (n := s.sessions) (k := s.gap) (by simp) rfl rfl rfl rfl)
  closeLive s := countsWithoutResync_of_uncounted rfl rfl rfl rfl rfl rfl
  closeCapture s := by
    rcases endCapture_cases s with ⟨-, he⟩ | ⟨-, he⟩ <;> rw [he]
    · exact countsWithoutResync_of_uncounted rfl rfl rfl rfl rfl rfl
    · exact countsWithoutResync_of_uncounted rfl rfl rfl rfl rfl rfl
  input s rest := countsWithoutResync_of_eq rfl rfl rfl rfl rfl
  read s a v := countsWithoutResync_of_uncounted rfl rfl rfl rfl rfl rfl
  raise s e w := countsWithoutResync_of_uncounted (es := [.error e w]) rfl (raiseError_output e w s)
    (raiseError_frames e w s) (raiseError_resyncs e w s) (raiseError_sessions e w s) (raiseError_lastGap e w s)
  cfgWrite s v := countsWithoutResync_of_eq rfl rfl rfl rfl rfl
  fed s := countsWithoutResync_of_eq rfl rfl rfl rfl rfl
  ended s := countsWithoutResync_of_eq rfl rfl rfl rfl rfl

/-- FEED in live HUNT counts the RESYNC it emits, whose gap is not 0 (41_live_sync.md R143, 10_state.md R38). -/
theorem feedLiveHunt_counts (b : Byte) (s : State) : CountsWithoutResync s (feedLiveHunt b s) ∨
    s.gap ≠ 0#32 ∧ CountsEvents s (feedLiveHunt b s) [.resync s.gap] ∧ (feedLiveHunt b s).lastGap = s.gap := by
  rcases feedLiveHunt_cases b s with ⟨-, he⟩ | ⟨hg, he⟩ | ⟨d, k, he⟩ <;> rw [he]
  · exact .inl (countsWithoutResync_of_eq rfl rfl rfl rfl rfl)
  · exact .inr ⟨hg, ⟨rfl, (BitVec.add_zero _).symm, rfl, (BitVec.add_zero _).symm⟩, rfl⟩
  · exact .inl (countsWithoutResync_of_eq rfl rfl rfl rfl rfl)

/-- A step that does not begin again counts its events, with at most one RESYNC, the last of them. -/
theorem step_counts (h : step s = .next t) (hr : s.restarts = false) : CountsWithoutResync s t ∨
    ∃ es g, g ≠ 0#32 ∧ CountsEvents s t (es ++ [.resync g]) ∧ (∀ g, .resync g ∉ es) ∧ t.lastGap = g := by
  have hR := stepRelation_countsWithoutResync
  rcases hR.step h hr with ⟨b, u, hu, rfl⟩ | hq
  · rcases feedLiveHunt_counts b u with hq | ⟨hg, hc, hl⟩
    · exact .inl (hR.trans hu hq)
    · obtain ⟨es, hes, hn, -⟩ := hu
      exact .inr ⟨es, u.gap, hg, hes.append hc, hn, hl⟩
  · exact .inl hq

theorem takesByte_iff {w : Token} {rest : List Input} {i : Instr} (hi : s.input = .token w :: rest)
    (hd : decode w = some i) : s.takesByte = true ↔ (∃ b, i = .feed b) ∧ s.phase ≠ .closed := by
  cases i <;> simp [State.takesByte, hi, hd]

/-- `BYTES_IN` grows by one in a FEED that is not refused, and in no other instruction but RESTART changes
(43_control_ops.md R206). -/
theorem exec_bytesIn {i : Instr} (h : exec i s = .next t) (hi : i ≠ .restart) :
    ((∃ b, i = .feed b) ∧ s.phase ≠ .closed) ∧ t.bytesIn = s.bytesIn + 1 ∨
    ¬((∃ b, i = .feed b) ∧ s.phase ≠ .closed) ∧ t.bytesIn = s.bytesIn := by
  rcases exec_cases h with ⟨rfl, rfl⟩ | ⟨a, rfl, rfl⟩ | ⟨rfl, -⟩ | ⟨v, rfl, -, rfl⟩ | ⟨v, rfl, -, rfl⟩ |
    ⟨-, hp, rfl⟩ | ⟨b, rfl, hp, hu⟩ | ⟨rfl, -, hu⟩
  · exact .inr (by simp)
  · exact .inr (by simp)
  · exact absurd rfl hi
  · exact .inr (by simp)
  · exact .inr (by simp)
  · exact .inr (by simp [hp])
  · exact .inl ⟨⟨⟨b, rfl⟩, hp⟩, (feedUnit_keepsControl hu).bytesIn⟩
  · exact .inr ⟨by simp, (eosUnit_keepsControl hu).bytesIn⟩

theorem step_bytesIn (h : step s = .next t) (hr : s.restarts = false) :
    t.bytesIn = s.bytesIn + (if s.takesByte then 1 else 0) := by
  rcases step_cases_of_not_restarts h hr with ⟨hi, rfl⟩ | ⟨w, rest, hi, ⟨hd, rfl⟩ | ⟨i, hne, hd, he⟩⟩
  · simp [State.takesByte, hi]
  · simp [State.takesByte, hi, hd]
  · rcases exec_bytesIn he hne with ⟨hf, hb⟩ | ⟨hf, hb⟩
    · rw [if_pos ((takesByte_iff hi hd).2 hf), hb]
    · have hn : ¬s.takesByte = true := fun ht => hf ((takesByte_iff hi hd).1 ht)
      rw [if_neg hn, hb]
      simp

/-- Settles O42: only FEED in live HUNT emits a RESYNC, as the last event of its step. -/
theorem countersCountTheirEvents : Obligations.CountersCountTheirEvents := by
  intro s t h hr
  have hb := step_bytesIn h hr
  rcases step_counts h hr with ⟨es, hc, hn, hl⟩ | ⟨es, g, hg, hc, hn, hl⟩
  · exact ⟨es, hc.output, hc.frames, hc.resyncs, hc.sessions, hb, fun g hm => absurd hm (hn g), fun _ => hl⟩
  · refine ⟨_, hc.output, hc.frames, hc.resyncs, hc.sessions, hb, fun g' hm => ?_,
      fun hno => absurd (by simp) (hno g)⟩
    obtain rfl : g' = g := by simpa [hn] using hm
    exact ⟨hl, hg⟩

end Sys2Proof.Machine
end

section
/-! SUPPORT. The bytes of `FB` at and past `FCNT` are never read (93_implementation_defined.md I17). -/

namespace Sys2Proof.Machine

variable {s s' t : State}

/-! ### Stale bytes -/

/-- Two states with canonical buffers that differ at most in the bytes at and past `FCNT`. -/
structure StaleApart (s s' : State) : Prop where
  wf : s.fb.wf = true
  wf' : s'.fb.wf = true
  same : sameButStaleBytes s s'

/-- An operation that answers alike, but for stale bytes, in two states that differ in stale bytes only. -/
def IgnoresStaleBytes (f : State → Except Fault State) : Prop :=
  ∀ s s' t, StaleApart s s' → f s = .ok t → ∃ t', f s' = .ok t' ∧ StaleApart t t'

/-- An update that neither reads nor writes `FB` and makes no stale byte valid. -/
structure PassesBytes (g : State → State) : Prop where
  comm : ∀ s m, g { s with fb := m } = { g s with fb := m }
  fb : ∀ s, (g s).fb = s.fb
  fcnt : ∀ s, (g s).fcnt.toNat ≤ s.fcnt.toNat

theorem StaleApart.map {g : State → State} (hg : PassesBytes g) (h : StaleApart s s') : StaleApart (g s) (g s') := by
  obtain ⟨hw, hw', he, hread⟩ := h
  have hgs : g s' = { g s with fb := s'.fb } := by
    conv_lhs => rw [he]
    exact hg.comm s s'.fb
  exact ⟨by rwa [hg.fb], by rwa [hg.fb], by rw [hgs], fun a ha => by
    rw [hg.fb, hg.fb]
    exact hread a (Nat.lt_of_lt_of_le ha (hg.fcnt s))⟩

theorem PassesBytes.ignores {g : State → State} (hg : PassesBytes g) : IgnoresStaleBytes fun s => .ok (g s) := by
  rintro s s' t h ht
  cases ht
  exact ⟨_, rfl, h.map hg⟩

theorem IgnoresStaleBytes.bind {f g : State → Except Fault State} (hf : IgnoresStaleBytes f)
    (hg : IgnoresStaleBytes g) : IgnoresStaleBytes fun s => (f s).bind g := by
  intro s s' t h ht
  simp only at ht ⊢
  cases hs : f s with
  | error e => rw [hs] at ht; cases ht
  | ok u =>
    obtain ⟨u', hu', hau⟩ := hf _ _ _ h hs
    rw [hs] at ht
    rw [hu']
    exact hg _ _ _ hau ht

/-- A choice by what stale bytes leave alone. -/
theorem IgnoresStaleBytes.ite {p : State → Prop} [DecidablePred p] {f g : State → Except Fault State}
    (hp : ∀ s m, p { s with fb := m } ↔ p s) (hf : IgnoresStaleBytes f) (hg : IgnoresStaleBytes g) :
    IgnoresStaleBytes fun s => if p s then f s else g s := by
  intro s s' t h ht
  have hps : p s' ↔ p s := by rw [h.same.1]; exact hp s s'.fb
  simp only at ht ⊢
  by_cases hc : p s
  · rw [if_pos hc] at ht
    rw [if_pos (hps.2 hc)]
    exact hf _ _ _ h ht
  · rw [if_neg hc] at ht
    rw [if_neg (mt hps.1 hc)]
    exact hg _ _ _ h ht

/-- Storing a byte at `FCNT` makes one byte more valid, and it is the same in both. -/
theorem storeByte_ignores (b : Byte) : IgnoresStaleBytes (storeByte b) := by
  rintro s s' t ⟨hw, hw', he, hread⟩ ht
  obtain ⟨hlt, rfl⟩ := storeByte_next ht
  have hf : s'.fcnt = s.fcnt := by rw [he]
  refine ⟨_, storeByte_ok b s' (by rwa [hf]), Memory.write_wf hw (by simpa using hlt) b,
    Memory.write_wf hw' (by simpa [hf] using hlt) b, by rw [he], fun a ha => ?_⟩
  rw [show (s.fcnt + 1).toNat = s.fcnt.toNat + 1 from fcnt_succ hlt (Nat.le_refl _)] at ha
  simp only [hf]
  rw [Memory.read_write hw, Memory.read_write hw']
  by_cases hab : a = s.fcnt.toNat
  · simp [hab]
  · rw [if_neg hab, if_neg hab, hread a (by omega)]

/-- The rest of an operation that stores a byte: a whole frame in the buffer is read and emitted by `g`. -/
theorem frameRead_ignores {g : List Byte → State → State} (hg : ∀ span, PassesBytes (g span)) :
    IgnoresStaleBytes fun s => if s.fcnt.toNat = frameSize s.ctrl then
      (memRead 0 (frameSize s.ctrl) s).map fun span => g span s else .ok s := by
  intro s s' t h ht
  obtain ⟨he, hread⟩ := h.same
  have hc : s'.ctrl = s.ctrl := by rw [he]
  have hf : s'.fcnt = s.fcnt := by rw [he]
  simp only [memRead_frame, hc, hf] at ht ⊢
  by_cases hlast : s.fcnt.toNat = frameSize s.ctrl
  · rw [if_pos hlast] at ht ⊢
    cases ht
    have hspan : s'.fb.span 0 (frameSize s.ctrl) = s.fb.span 0 (frameSize s.ctrl) :=
      Memory.span_congr fun i hi => hread _ (by omega)
    exact ⟨_, rfl, by rw [hspan]; exact h.map (hg _)⟩
  · rw [if_neg hlast] at ht ⊢
    cases ht
    exact ⟨s', rfl, h⟩

theorem commit_ignores (x : Byte) : IgnoresStaleBytes (commit x) := by
  refine IgnoresStaleBytes.ite (p := fun s => s.phase = .hunt) (fun _ _ => Iff.rfl)
    (PassesBytes.ignores ⟨fun _ _ => rfl, fun _ => rfl, fun _ => Nat.le_refl _⟩)
    ((storeByte_ignores x).bind (frameRead_ignores (g := fun span s1 =>
      { emit (.frame (s1.sessions - 1) (decodeSpan s1.ctrl span))
          { s1 with frames := s1.frames + 1, sframes := s1.sframes + 1 } with fcnt := 0#10 }) fun _ =>
      ⟨fun _ _ => rfl, fun _ => rfl, fun _ => Nat.zero_le _⟩))

theorem commitAll_ignores (bs : List Byte) : IgnoresStaleBytes (commitAll bs) := by
  induction bs with
  | nil => exact PassesBytes.ignores (g := id) ⟨fun _ _ => rfl, fun _ => rfl, fun _ => Nat.le_refl _⟩
  | cons x bs ih => exact (commit_ignores x).bind ih

theorem feedLiveCollect_ignores (b : Byte) : IgnoresStaleBytes (feedLiveCollect b) :=
  (storeByte_ignores b).bind (frameRead_ignores (g := fun span s1 =>
    { emit (.frame 0#32 (decodeSpan s1.ctrl span)) { s1 with frames := s1.frames + 1 } with
      phase := .hunt, j := 0#2, fcnt := 0#10 }) fun _ =>
    ⟨fun _ _ => rfl, fun _ => rfl, fun _ => Nat.zero_le _⟩)

theorem feedLiveHunt_passes (b : Byte) : PassesBytes (feedLiveHunt b) where
  comm s m := by
    unfold feedLiveHunt reportGap
    simp only
    split
    · split <;> rfl
    · rfl
  fb s := by rcases feedLiveHunt_cases b s with ⟨-, he⟩ | ⟨-, he⟩ | ⟨d, k, he⟩ <;> rw [he]
  fcnt s := by rcases feedLiveHunt_cases b s with ⟨-, he⟩ | ⟨-, he⟩ | ⟨d, k, he⟩ <;> simp [he]

theorem feedOfflineA5_passes : PassesBytes feedOfflineA5 where
  comm s m := by
    unfold feedOfflineA5 startSession
    simp only
    split
    · split <;> rfl
    · rfl
  fb s := by rcases feedOfflineA5_cases s with ⟨k, he⟩ | ⟨-, he⟩ | ⟨-, he⟩ <;> rw [he]
  fcnt s := by rcases feedOfflineA5_cases s with ⟨k, he⟩ | ⟨-, he⟩ | ⟨-, he⟩ <;> simp [he]

theorem endCapture_passes : PassesBytes endCapture where
  comm s m := by
    unfold endCapture
    simp only
    split <;> rfl
  fb s := by rcases endCapture_cases s with ⟨-, he⟩ | ⟨-, he⟩ <;> rw [he]
  fcnt s := by rcases endCapture_cases s with ⟨-, he⟩ | ⟨-, he⟩ <;> simp [he]

theorem eosLive_passes : PassesBytes eosLive := ⟨fun _ _ => rfl, fun _ => rfl, fun _ => Nat.zero_le _⟩

/-- The pending bytes are as many in both states. -/
theorem commitPending_ignores (bs : List Byte) :
    IgnoresStaleBytes fun s => commitAll (List.replicate s.j.toNat 0xA5#8 ++ bs) { s with j := 0#2 } := by
  intro s s' t h ht
  have hj : s'.j = s.j := by rw [h.same.1]
  simp only [hj]
  exact commitAll_ignores _ _ _ _ (h.map (g := fun s => { s with j := 0#2 })
    ⟨fun _ _ => rfl, fun _ => rfl, fun _ => Nat.le_refl _⟩) ht

theorem feedUnit_ignores (b : Byte) : IgnoresStaleBytes (feedUnit b) := by
  refine .ite (p := fun s => isOffline s.ctrl = true) (fun _ _ => Iff.rfl) ?_
    (.ite (p := fun s => s.phase = .hunt) (fun _ _ => Iff.rfl) (feedLiveHunt_passes b).ignores
      (feedLiveCollect_ignores b))
  by_cases hb : b = Config.sessionByte
  · simpa only [if_pos hb] using feedOfflineA5_passes.ignores
  · simp only [if_neg hb]
    exact commitPending_ignores [b]

theorem eosUnit_ignores : IgnoresStaleBytes eosUnit := by
  refine .ite (p := fun s => isOffline s.ctrl = true) (fun _ _ => Iff.rfl) ?_ eosLive_passes.ignores
  have h := (commitPending_ignores []).bind endCapture_passes.ignores
  simp only [List.append_nil] at h
  exact h

theorem raiseError_passes (e : ErrorKind) (w : Token) : PassesBytes (raiseError e w) where
  comm s m := by cases e <;> rfl
  fb s := raiseError_fb e w s
  fcnt s := by rw [raiseError_fcnt]

theorem readEmit_passes (a : RegAddr) : PassesBytes fun s => emit (.readData a (readReg a s)) s :=
  ⟨fun _ _ => rfl, fun _ => rfl, fun _ => Nat.le_refl _⟩

theorem exec_stale {i : Instr} (h : StaleApart s s') (ht : exec i s = .next t) :
    ∃ t', exec i s' = .next t' ∧ StaleApart t t' := by
  have hp : s'.phase = s.phase := by rw [h.same.1]
  have hl : s'.locked = s.locked := by rw [h.same.1]
  have hfed : PassesBytes State.fed := ⟨fun _ _ => rfl, fun _ => rfl, fun _ => Nat.le_refl _⟩
  have hended : PassesBytes State.ended := ⟨fun _ _ => rfl, fun _ => rfl, fun _ => Nat.le_refl _⟩
  rcases exec_cases ht with ⟨rfl, rfl⟩ | ⟨a, rfl, rfl⟩ | ⟨rfl, rfl⟩ | ⟨v, rfl, hu, rfl⟩ | ⟨v, rfl, hu, rfl⟩ |
    ⟨hi, hc, rfl⟩ | ⟨b, rfl, hc, hu⟩ | ⟨rfl, hc, hu⟩
  · exact ⟨s', rfl, h⟩
  · exact ⟨_, rfl, h.map (readEmit_passes a)⟩
  · refine ⟨_, rfl, rfl, rfl, ?_, fun _ _ => rfl⟩
    rw [h.same.1]
    rfl
  · refine ⟨_, ?_, h.map (g := fun s => { s with ctrl := v }) ⟨fun _ _ => rfl, fun _ => rfl, fun _ => Nat.le_refl _⟩⟩
    simp [exec, execCfgWrite, cfgWriteWith, hl, hu]
  · refine ⟨_, ?_, h.map (raiseError_passes _ _)⟩
    simp [exec, execCfgWrite, cfgWriteWith, hl, hu]
  · refine ⟨_, ?_, h.map (raiseError_passes _ _)⟩
    rcases hi with ⟨b, rfl⟩ | rfl
    · exact exec_feed_closed b (hp.trans hc)
    · exact exec_eos_closed (hp.trans hc)
  · obtain ⟨t', ht', hs⟩ := feedUnit_ignores b _ _ _ (h.map hfed) hu
    exact ⟨t', by rw [exec_feed_open b (by rwa [hp]), ht']; rfl, hs⟩
  · obtain ⟨t', ht', hs⟩ := eosUnit_ignores _ _ _ (h.map hended) hu
    exact ⟨t', by rw [exec_eos_open (by rwa [hp]), ht']; rfl, hs⟩

theorem withInput_passes (rest : List Input) : PassesBytes fun s => { s with input := rest } :=
  ⟨fun _ _ => rfl, fun _ => rfl, fun _ => Nat.le_refl _⟩

/-- Settles O45: each operation ignores stale bytes, and the buffers stay canonical. -/
theorem staleBytesAreNeverRead : Obligations.StaleBytesAreNeverRead := by
  intro s s' t hw hw' hs ht
  have h : StaleApart s s' := ⟨hw, hw', hs⟩
  have hin : s'.input = s.input := by rw [hs.1]
  rcases step_cases ht with ⟨hi, rfl⟩ | ⟨rest, hi, rfl⟩ | ⟨w, rest, hi, hd, rfl⟩ | ⟨w, rest, i, hi, hd, he⟩ <;>
    rw [← hin] at hi
  · exact ⟨s', step_idle hi, hs⟩
  · refine ⟨_, step_reset hi, ?_, fun _ _ => rfl⟩
    rw [hs.1]
    rfl
  · refine ⟨_, ?_, ((h.map (withInput_passes rest)).map (raiseError_passes .illegalToken w)).same⟩
    rw [step_token hi, runToken, hd]
    rfl
  · obtain ⟨t', ht', hst⟩ := exec_stale (h.map (withInput_passes rest)) he
    exact ⟨t', by rw [step_token hi, runToken, hd]; exact ht', hst.same⟩

end Sys2Proof.Machine
end

section
/-! SUPPORT. Reset values, the values derived from `CTRL`, `STATUS`, and the bounds of the held bytes (10_state.md
R26 to R31, R48). -/

namespace Sys2Proof.Machine

/-- Settles O1: a token of the RESTART row has no free bit. -/
theorem resetAndRestartValues : Obligations.ResetAndRestartValues :=
  ⟨by simp [State.reset], fun _ => decode_eq_restart, fun _ => rfl⟩

/-- Settles O16: the token is in the row of CFG_WRITE, and its instruction is not well-formed. -/
theorem modeWithoutTheOfflineUnit : Obligations.ModeWithoutTheOfflineUnit := by
  refine ⟨fun c => by simp [isOffline, ctrlMode], fun c => ⟨rfl, ?_⟩, fun v h => ?_⟩
  · simp [ctrlWord]
  · rw [← encode_cfgWrite]
    exact decodeWith_false_cfgWrite h

/-- Settles O15, by the bits of `CTRL`. -/
theorem derivedFromCtrl : Obligations.DerivedFromCtrl := by
  intro c
  refine ⟨?_, frameSize_ge c, frameSize_le c, ?_, ?_⟩
  · rw [← ctrlNch_toNat]
    cases h : c.getLsbD 8 <;> simp only [frameSize, ctrlLayout, layoutBit_eq, h] <;> rfl
  · cases h : c.getLsbD 9
    · exact markerWidth_live h
    · exact markerWidth_legacy h
  · cases h : c.getLsbD 9
    · exact marker_live h
    · exact marker_legacy h

/-! ### `STATUS` -/

theorem flagBit_getLsbD (f : Bool) (n : Nat) {i : Nat} (hi : i < 32) :
    (flagBit f n).getLsbD i = (decide (i = n) && f) := by
  rw [flagBit, BitVec.getLsbD_shiftLeft, BitVec.getLsbD_setWidth, BitVec.getLsbD_ofBool]
  by_cases h : i = n
  · simp [h, h ▸ hi]
  · simp only [h, decide_false, Bool.false_and]
    grind

/-- Bit `i` of `STATUS` (10_state.md R31). -/
def statusBit (s : State) (i : Nat) : Bool :=
  s.phase.code.getLsbD i || (!decide (i < 2) && s.j.getLsbD (i - 2)) || (!decide (i < 4) && s.fcnt.getLsbD (i - 4)) ||
    (decide (i = 16) && s.locked) || (decide (i = 17) && s.errCfg) || (decide (i = 18) && s.errIllegal) ||
    (decide (i = 19) && s.errAfterClose) || (decide (i = 20) && s.nomarker)

theorem statusWord_getLsbD (s : State) {i : Nat} (hi : i < 32) : (statusWord s).getLsbD i = statusBit s i := by
  have h2 : i - 2 < 32 := by omega
  have h4 : i - 4 < 32 := by omega
  simp only [statusWord, statusBit, BitVec.getLsbD_or, BitVec.getLsbD_shiftLeft, BitVec.getLsbD_setWidth,
    flagBit_getLsbD _ _ hi, hi, h2, h4, decide_true, Bool.true_and]

/-- The field of `STATUS` from bit `k` on. -/
theorem statusWord_field {s : State} {k w : Nat} {x : BitVec w} (hw : k + w ≤ 32)
    (h : ∀ i, i < w → statusBit s (k + i) = x.getLsbD i) : (statusWord s).extractLsb' k w = x := by
  refine BitVec.eq_of_getLsbD_eq fun i hi => ?_
  rw [BitVec.getLsbD_extractLsb', statusWord_getLsbD s (by omega), h i hi]
  simp [hi]

theorem statusWord_phase (s : State) : (statusWord s).extractLsb' 0 2 = s.phase.code :=
  statusWord_field (by decide) fun i hi => by interval_cases i <;> simp [statusBit]

/-- Settles O13, bit by bit. -/
theorem statusFields : Obligations.StatusFields := by
  intro s
  have phase : s.phase.code = (match s.phase with | .hunt => 0#2 | .collect => 1#2 | .closed => 2#2) := by
    cases s.phase <;> rfl
  exact ⟨(statusWord_phase s).trans phase,
    statusWord_field (by decide) fun i hi => by interval_cases i <;> simp [statusBit],
    statusWord_field (by decide) fun i hi => by interval_cases i <;> simp [statusBit],
    statusWord_field (by decide) fun i hi => by interval_cases i <;> simp [statusBit],
    (statusWord_getLsbD s (by decide)).trans (by simp [statusBit]),
    (statusWord_getLsbD s (by decide)).trans (by simp [statusBit]),
    (statusWord_getLsbD s (by decide)).trans (by simp [statusBit]),
    (statusWord_getLsbD s (by decide)).trans (by simp [statusBit]),
    (statusWord_getLsbD s (by decide)).trans (by simp [statusBit]),
    statusWord_field (by decide) fun i hi => by interval_cases i <;> simp [statusBit]⟩

/-- Settles O31: after reset nothing is locked, and no byte is accounted. -/
theorem resetMeetsTheInvariant : Obligations.ResetMeetsTheInvariant := fun c =>
  ⟨inv_of_unlocked c false [] [], (accountedBytes_of_unlocked c false [] []).symm⟩

/-- Settles O36, by phase. -/
theorem heldBytesAreBounded : Obligations.HeldBytesAreBounded := by
  intro s h
  have hf := h.fcntBelow
  have hW := markerWidth_cases s.ctrl
  have hj4 := s.j.isLt
  refine ⟨fun ho => ?_, fun ho => ?_⟩
  · cases hp : s.phase with
    | hunt =>
      have := h.liveHunt ho hp
      simp [heldBytes, hp, ho]
      omega
    | collect =>
      simp [heldBytes, hp, ho]
      omega
    | closed => simp [heldBytes, hp]
  · cases hp : s.phase with
    | hunt =>
      simp [heldBytes, hp, ho]
      omega
    | collect =>
      simp [heldBytes, hp, ho]
      omega
    | closed => simp [heldBytes, hp]

end Sys2Proof.Machine
end

section
/-! SUPPORT. The trace along a run (20_memory.md R68): no step takes an emitted event back, and RESTART and the reset
input keep the trace (93_implementation_defined.md I22, log 2). -/

namespace Sys2Proof.Machine

variable {s t : State}

theorem step_output_prefix (h : step s = .next t) : s.output <+: t.output := by
  cases hr : s.restarts with
  | true =>
    obtain ⟨c, rest, hs⟩ := step_of_restarts hr
    obtain rfl : _ = t := Host.Outcome.next.inj (hs.symm.trans h)
    exact List.prefix_rfl
  | false =>
    obtain ⟨es, ho, -⟩ := discardedBytesAreReported s t h hr
    exact ⟨es, ho.symm⟩

/-- Settles O41: being a prefix of the trace composes, so a run has it from its steps. -/
theorem eventsAreOnlyAppended : Obligations.EventsAreOnlyAppended := by
  intro n s t h
  obtain ⟨es, ho⟩ : s.output <+: t.output :=
    run_induction (R := fun s t => s.output <+: t.output) (fun _ => List.prefix_rfl) List.IsPrefix.trans
      step_output_prefix h
  exact ⟨es, ho.symm⟩

end Sys2Proof.Machine
end

section
/-! SUPPORT. Decode and encode agree (30_encoding.md R86 to R92): the bits a row's mask leaves free are its operand's,
so a token of a row is the encoding of the instruction it carries. -/

namespace Sys2Proof

/-! ### A token and its encoding -/

theorem encodedRow : ∀ i : Instr, Laws.EncodedRow.Statement i
  | .nop => Laws.EncodedRow.nop
  | .feed b => Laws.EncodedRow.feed b
  | .eos => Laws.EncodedRow.eos
  | .cfgWrite v => Laws.EncodedRow.cfgWrite v
  | .restart => Laws.EncodedRow.restart
  | .read a => Laws.EncodedRow.read a

theorem mask_getLsbD (o : Op) : ∀ i, i < 32 → (rowOf o).mask.getLsbD i = decide (o.operandWidth ≤ i) := by
  cases o <;> decide

/-- The operand field of a token is what the row's mask leaves free. -/
theorem operandField_eq_free (o : Op) (t : Token) :
    (t.extractLsb' 0 o.operandWidth).setWidth 32 = t &&& ~~~(rowOf o).mask := by
  refine BitVec.eq_of_getLsbD_eq fun i hi => ?_
  rw [BitVec.getLsbD_setWidth, BitVec.getLsbD_extractLsb', BitVec.getLsbD_and, BitVec.getLsbD_not, mask_getLsbD o i hi]
  by_cases h : i < o.operandWidth
  · simp [hi, h]
  · simp [h, not_lt.1 h]

theorem operandBits_instrOf (t : Token) (o : Op) :
    operandBits (instrOf t o) = (t.extractLsb' 0 o.operandWidth).setWidth 32 := by
  cases o with
  | nop | eos | restart => simp [instrOf, operandBits, Op.operandWidth]
  | feed | cfgWrite | read => rfl

/-- A token of a row is the encoding of the instruction it carries. -/
theorem encode_instrOf {o : Op} {t : Token} (h : (rowOf o).admits t = true) : encode (instrOf t o) = t := by
  have hp : t &&& (rowOf o).mask = (rowOf o).pattern := beq_iff_eq.1 h
  calc encode (instrOf t o)
      = t &&& (rowOf o).mask ||| t &&& ~~~(rowOf o).mask := by
        rw [encode, instrOf_op, operandBits_instrOf, operandField_eq_free, hp]
    _ = t := by rw [← BitVec.and_or_distrib_left, BitVec.or_not_self, BitVec.and_allOnes]

/-- The tokens that decode to an instruction are its encoding, where it is well-formed (30_encoding.md R92). -/
theorem decodeWith_eq_some_iff_encode {off : Bool} {t : Token} {i : Instr} :
    decodeWith off t = some i ↔ encode i = t ∧ i.wfWith off = true := by
  rw [decodeWith_eq_some]
  refine and_congr_left fun _ => ⟨fun ⟨ha, hi⟩ => ?_, ?_⟩
  · rw [← hi]
    exact encode_instrOf ha
  · rintro rfl
    exact encodedRow i

/-- Settles O6: an encoding belongs to its instruction's row, and the operand reads back. -/
theorem decodeOfEncodeIsTheInstruction : Obligations.DecodeOfEncodeIsTheInstruction :=
  fun _ _ h => decodeWith_eq_some_iff_encode.2 ⟨rfl, h⟩

/-- Settles O7: a token is its row's pattern and the bits that the row's mask leaves free. -/
theorem encodeOfDecodeIsTheToken : Obligations.EncodeOfDecodeIsTheToken :=
  fun _ _ _ => decodeWith_eq_some_iff_encode.1

/-! ### The decoder row by row -/

/-- A row whose mask has every bit admits one token. -/
theorem admits_iff_eq {o : Op} {t : Token} (hm : (rowOf o).mask = BitVec.allOnes 32) :
    (rowOf o).admits t = true ↔ t = (rowOf o).pattern := by
  rw [Row.admits, beq_iff_eq, hm, BitVec.and_allOnes]

theorem admits_nop {t : Token} : (rowOf .nop).admits t = true ↔ t = 0x00000000#32 := by
  rw [admits_iff_eq (by decide), rowOf_nop]

theorem admits_feed {t : Token} : (rowOf .feed).admits t = true ↔ t &&& 0xFFFFFF00#32 = 0x10000000#32 := by
  rw [rowOf_feed, Row.admits, beq_iff_eq]

theorem admits_eos {t : Token} : (rowOf .eos).admits t = true ↔ t = 0x20000000#32 := by
  rw [admits_iff_eq (by decide), rowOf_eos]

theorem admits_cfgWrite {t : Token} : (rowOf .cfgWrite).admits t = true ↔ t &&& 0xFFFFF800#32 = 0x30000000#32 := by
  rw [rowOf_cfgWrite, Row.admits, beq_iff_eq]

theorem admits_restart {t : Token} : (rowOf .restart).admits t = true ↔ t = 0x40000000#32 := by
  rw [admits_iff_eq (by decide), rowOf_restart]

theorem admits_read {t : Token} : (rowOf .read).admits t = true ↔ t &&& 0xFFFFFF00#32 = 0x50000000#32 := by
  rw [rowOf_read, Row.admits, beq_iff_eq]

theorem instrOf_feed (t : Token) : instrOf t .feed = .feed (t.setWidth 8) := by
  rw [BitVec.setWidth_eq_extractLsb' (by decide)]
  rfl

theorem instrOf_cfgWrite (t : Token) : instrOf t .cfgWrite = .cfgWrite (t.setWidth 11) := by
  rw [BitVec.setWidth_eq_extractLsb' (by decide)]
  rfl

theorem instrOf_read (t : Token) : instrOf t .read = .read (t.setWidth 8) := by
  rw [BitVec.setWidth_eq_extractLsb' (by decide)]
  rfl

/-- A token of a row decodes to the instruction it carries, or is illegal in this build (30_encoding.md R92). -/
theorem decodeWith_of_admits {o : Op} {t : Token} (off : Bool) (h : (rowOf o).admits t = true) :
    decodeWith off t = if (instrOf t o).wfWith off then some (instrOf t o) else none := by
  have hd : decodeRow t = some (instrOf t o) := decodeRow_eq_some.2 (by rw [instrOf_op]; exact ⟨h, rfl⟩)
  rw [decodeWith, hd, Option.filter_some]

/-- A token of no row is illegal (30_encoding.md R92). -/
theorem decodeWith_eq_none {t : Token} (off : Bool) (h : ∀ o, (rowOf o).admits t ≠ true) :
    decodeWith off t = none :=
  Option.eq_none_iff_forall_ne_some.2 fun i hi => h i.op (decodeWith_eq_some.1 hi).1.1

/-- Settles O5: the token is in one row, whose instruction is decoded where it is well-formed, or in none. -/
theorem decodeFollowsTheRows : Obligations.DecodeFollowsTheRows := by
  refine ⟨fun off t => ?_, fun a ha b hb hab t => ?_⟩
  · split
    · next h => rw [decodeWith_of_admits off (admits_nop.2 h)]; rfl
    split
    · next h => rw [decodeWith_of_admits off (admits_feed.2 h), instrOf_feed]; rfl
    split
    · next h => rw [decodeWith_of_admits off (admits_eos.2 h)]; rfl
    split
    · next h =>
      rw [decodeWith_of_admits off (admits_cfgWrite.2 h), instrOf_cfgWrite, wfWith_cfgWrite]
      have hbit : (t.setWidth 11).getLsbD 10 = t.getLsbD 10 := BitVec.getLsbD_setWidth 11 t 10
      rw [hbit]
      cases off <;> cases t.getLsbD 10 <;> rfl
    split
    · next h => rw [decodeWith_of_admits off (admits_restart.2 h)]; rfl
    split
    · next h => rw [decodeWith_of_admits off (admits_read.2 h), instrOf_read]; rfl
    · refine decodeWith_eq_none off fun o => ?_
      cases o with
      | nop => rwa [ne_eq, admits_nop]
      | feed => rwa [ne_eq, admits_feed]
      | eos => rwa [ne_eq, admits_eos]
      | cfgWrite => rwa [ne_eq, admits_cfgWrite]
      | restart => rwa [ne_eq, admits_restart]
      | read => rwa [ne_eq, admits_read]
  · obtain ⟨oa, rfl⟩ := mem_rows.1 ha
    obtain ⟨ob, rfl⟩ := mem_rows.1 hb
    rintro ⟨hta, htb⟩
    exact hab (congrArg rowOf (op_eq_of_admits hta htb))

/-- Settles O8: the words are closed, so the decoder evaluates on them. -/
theorem writtenWordsDecode : Obligations.WrittenWordsDecode := by
  unfold Obligations.WrittenWordsDecode
  decide

/-! ### The assembler (30_encoding.md R96, R97) -/

/-- A byte of a wider value, as a token's operand. -/
theorem setWidth_byte {w : Nat} (v : BitVec w) (k : Nat) :
    (v.extractLsb' k 8).setWidth 32 = (v >>> k).setWidth 32 &&& 0xFF#32 := by
  calc (v.extractLsb' k 8).setWidth 32
      = (((v >>> k).setWidth 32).extractLsb' 0 8).setWidth 32 := by
        rw [BitVec.extractLsb'_setWidth_of_le (by decide), ← BitVec.setWidth_ushiftRight_eq_extractLsb,
          ← BitVec.setWidth_ushiftRight_eq_extractLsb, BitVec.ushiftRight_zero]
    _ = (v >>> k).setWidth 32 &&& 0xFF#32 := operandField_eq_free .feed _

theorem setWidth_cfgValue (n : ChannelCount) (l m o : Bool) :
    (cfgValue n l m o).setWidth 32 = n.setWidth 32 ||| (if l then 0x100#32 else 0#32)
      ||| (if m then 0x200#32 else 0#32) ||| (if o then 0x400#32 else 0#32) := by
  rw [cfgValue, BitVec.setWidth_or, BitVec.setWidth_or, BitVec.setWidth_or, BitVec.setWidth_setWidth (by decide)]
  cases l <;> cases m <;> cases o <;> rfl

theorem feedTokens_eq (bs : List Byte) : feedTokens bs = bs.map (fun b => 0x10000000#32 ||| b.setWidth 32) := by
  simp only [feedTokens, encode_feed]

/-- The top byte of a wider value, as a token's operand. -/
theorem setWidth_topByte {w k : Nat} (v : BitVec w) (hw : w ≤ k + 8) :
    (v.extractLsb' k 8).setWidth 32 = (v >>> k).setWidth 32 := by
  rw [← BitVec.setWidth_ushiftRight_eq_extractLsb]
  refine BitVec.eq_of_toNat_eq ?_
  have hv : v.toNat >>> k < 2 ^ 8 := by
    rw [Nat.shiftRight_eq_div_pow, Nat.div_lt_iff_lt_mul (by positivity), ← pow_add, Nat.add_comm]
    exact v.isLt.trans_le (Nat.pow_le_pow_right (by decide) hw)
  rw [BitVec.toNat_setWidth, BitVec.toNat_setWidth, BitVec.toNat_setWidth, BitVec.toNat_ushiftRight,
    Nat.mod_eq_of_lt hv]

/-- Settles O9: each line is the encoding of its instruction, and the bytes of a wider value are its shifts. -/
theorem assemblerLinesExpand : Obligations.AssemblerLinesExpand := by
  refine ⟨⟨?_, ?_, ?_, ?_, ?_, ?_, ?_, ?_, ?_⟩, feedTokens_eq, fun v => ?_, fun v => ?_, ?_, ?_⟩
  · exact congrArg ([·]) encode_nop
  · exact fun b => feedTokens_eq [b]
  · exact congrArg ([·]) encode_eos
  · exact fun v => congrArg ([·]) (encode_cfgWrite v)
  · intro n l m o
    rw [assembleLine, encode_cfgWrite, setWidth_cfgValue]
    simp only [BitVec.or_assoc]
  · exact congrArg ([·]) encode_restart
  · exact fun a => congrArg ([·]) (encode_read a)
  · decide
  · exact fun _ => rfl
  · rw [assembleLine, feedTokens_eq, bytes16]
    simp [setWidth_byte v 0, setWidth_topByte v (k := 8)]
  · rw [assembleLine, feedTokens_eq, bytes32]
    simp [setWidth_byte, setWidth_topByte v (k := 24)]
  · decide
  · decide

end Sys2Proof
end

section
/-! SUPPORT. Which events a step appends to the trace (20_memory.md R68): the units emit no ERROR, and `raise` emits
only the causes of 60_exceptions.md R235. -/

namespace Sys2Proof.Machine

variable {p q : Event → Prop} {s t u : State}

/-- Between two states only events with the property `p` are appended to the trace. -/
def AppendsOnly (p : Event → Prop) (s t : State) : Prop :=
  ∃ es, t.output = s.output ++ es ∧ ∀ e ∈ es, p e

theorem appendsOnly_of_eq (h : t.output = s.output) : AppendsOnly p s t :=
  ⟨[], by rw [h, List.append_nil], by simp⟩

theorem appendsOnly_of_one {e : Event} (h : t.output = s.output ++ [e]) (he : p e) : AppendsOnly p s t :=
  ⟨[e], h, by simpa using he⟩

theorem appendsOnly_of_two {e f : Event} (h : t.output = s.output ++ [e, f]) (he : p e) (hf : p f) :
    AppendsOnly p s t :=
  ⟨[e, f], h, by simpa using ⟨he, hf⟩⟩

theorem AppendsOnly.trans (h : AppendsOnly p s t) (h' : AppendsOnly p t u) : AppendsOnly p s u := by
  obtain ⟨es, ho, hp⟩ := h
  obtain ⟨fs, ho', hp'⟩ := h'
  exact ⟨es ++ fs, by rw [ho', ho, List.append_assoc], List.forall_mem_append.2 ⟨hp, hp'⟩⟩

theorem AppendsOnly.mono (h : AppendsOnly p s t) (hpq : ∀ e, p e → q e) : AppendsOnly q s t := by
  obtain ⟨es, ho, hp⟩ := h
  exact ⟨es, ho, fun e he => hpq e (hp e he)⟩

/-! ### The units emit no ERROR -/

theorem feedLiveHunt_emitsNoError (b : Byte) (s : State) :
    AppendsOnly (fun e => e.isError = false) s (feedLiveHunt b s) := by
  rcases feedLiveHunt_cases b s with ⟨-, he⟩ | ⟨-, he⟩ | ⟨d, k, he⟩ <;> rw [he]
  · exact appendsOnly_of_eq rfl
  · exact appendsOnly_of_one rfl rfl
  · exact appendsOnly_of_eq rfl

theorem unitRelation_emitsNoError : UnitRelation (AppendsOnly fun e => e.isError = false) where
  refl s := appendsOnly_of_eq rfl
  trans := AppendsOnly.trans
  pending s := appendsOnly_of_eq rfl
  collect h := by
    rcases feedLiveCollect_cases h with rfl | ⟨r, rfl⟩
    · exact appendsOnly_of_eq rfl
    · exact appendsOnly_of_one rfl rfl
  commit h := by
    rcases commit_cases h with ⟨-, rfl⟩ | ⟨-, rfl⟩ | ⟨-, r, rfl⟩
    · exact appendsOnly_of_eq rfl
    · exact appendsOnly_of_eq rfl
    · exact appendsOnly_of_one rfl rfl
  markerByte s := by
    rcases feedOfflineA5_cases s with ⟨k, he⟩ | ⟨-, he⟩ | ⟨-, he⟩ <;> rw [he]
    · exact appendsOnly_of_eq rfl
    · exact appendsOnly_of_one rfl rfl
    · exact appendsOnly_of_two rfl rfl rfl
  closeLive s := appendsOnly_of_one rfl rfl
  closeCapture s := by
    rcases endCapture_cases s with ⟨-, he⟩ | ⟨-, he⟩ <;> rw [he]
    · exact appendsOnly_of_two rfl rfl rfl
    · exact appendsOnly_of_two rfl rfl rfl

theorem feedUnit_emitsNoError {b : Byte} (h : feedUnit b s = .ok t) :
    AppendsOnly (fun e => e.isError = false) s t := by
  rcases unitRelation_emitsNoError.feedUnit h with rfl | ht
  · exact feedLiveHunt_emitsNoError b s
  · exact ht

theorem eosUnit_emitsNoError (h : eosUnit s = .ok t) : AppendsOnly (fun e => e.isError = false) s t :=
  unitRelation_emitsNoError.eosUnit h

/-! ### The reserved error (40_deserializer.md R115) -/

/-- An event but an ERROR with the reserved code DECODE_FAILURE (30_encoding.md R95). -/
def Event.NotDecodeFailure (e : Event) : Prop := ∀ w, e ≠ .error .decodeFailure w

theorem Event.notDecodeFailure_of_not_isError {e : Event} (h : e.isError = false) : e.NotDecodeFailure := by
  rintro w rfl
  cases h

theorem raiseError_appends {e : ErrorKind} (w : Token) (s : State) (he : e ≠ .decodeFailure) :
    AppendsOnly Event.NotDecodeFailure s (raiseError e w s) :=
  appendsOnly_of_one (raiseError_output e w s) fun _ h => he (Event.error.inj h).1

theorem exec_emitsNoDecodeFailure {i : Instr} (h : exec i s = .next t) : AppendsOnly Event.NotDecodeFailure s t := by
  rcases exec_cases h with ⟨-, rfl⟩ | ⟨a, -, rfl⟩ | ⟨-, rfl⟩ | ⟨v, -, -, rfl⟩ | ⟨v, -, -, rfl⟩ | ⟨-, -, rfl⟩ |
    ⟨b, -, -, hu⟩ | ⟨-, -, hu⟩
  · exact appendsOnly_of_eq rfl
  · exact appendsOnly_of_one rfl (Event.notDecodeFailure_of_not_isError rfl)
  · exact appendsOnly_of_eq rfl
  · exact appendsOnly_of_eq rfl
  · exact raiseError_appends _ s (by decide)
  · exact raiseError_appends _ s (by decide)
  · exact (feedUnit_emitsNoError hu).mono fun _ => Event.notDecodeFailure_of_not_isError
  · exact (eosUnit_emitsNoError hu).mono fun _ => Event.notDecodeFailure_of_not_isError

theorem step_emitsNoDecodeFailure (h : step s = .next t) : AppendsOnly Event.NotDecodeFailure s t := by
  rcases step_cases h with ⟨-, rfl⟩ | ⟨rest, -, rfl⟩ | ⟨w, rest, -, -, rfl⟩ | ⟨w, rest, i, -, -, he⟩
  · exact appendsOnly_of_eq rfl
  · exact appendsOnly_of_eq rfl
  · exact raiseError_appends w { s with input := rest } (by decide)
  · exact AppendsOnly.trans (t := { s with input := rest }) (appendsOnly_of_eq rfl)
      (exec_emitsNoDecodeFailure he)

/-- Settles O43: ERROR events come from `raise` only, and no operation raises the reserved error. -/
theorem decodeFailureIsNeverEmitted : Obligations.DecodeFailureIsNeverEmitted := by
  intro s t h
  obtain ⟨es, ho, hp⟩ := step_emitsNoDecodeFailure h
  exact ⟨es, ho, fun w hm => hp _ hm w rfl⟩

end Sys2Proof.Machine
end

section
/-! SUPPORT. The deserializer's fields and its round-trip law (40_deserializer.md R113, R114, R118): an array of
little-endian fields is encoded and read back field by field, and both layouts are a 12-byte head and such arrays. -/

namespace Sys2Proof.Machine

/-! ### Arrays of fields -/

theorem slice_append (s : List Byte) (o a b : Nat) : slice s o a ++ slice s (o + a) b = slice s o (a + b) := by
  simp only [slice, List.take_add, List.drop_drop]

theorem slice_all {s : List Byte} {n : Nat} (h : s.length = n) : slice s 0 n = s := by
  rw [slice, List.drop_zero, List.take_of_length_le h.le]

theorem singleton_byteAt {s : List Byte} {o : Nat} (h : o < s.length) : [byteAt s o] = slice s o 1 := by
  rw [slice_succ 0 h, slice_zero, byteAt]

theorem getD_map_range {α : Type} (f : Nat → α) (d : α) {n k : Nat} (h : k < n) :
    ((List.range n).map f).getD k d = f k := by
  simp [List.getD_eq_getElem?_getD, h]

/-- `enc` writes a field of `k` bytes, and `dec` reads the field at an offset. -/
structure FieldCodec {α : Type} (k : Nat) (enc : α → List Byte) (dec : List Byte → Nat → α) : Prop where
  length_enc : ∀ v, (enc v).length = k
  dec_append : ∀ p t v, dec (p ++ (enc v ++ t)) p.length = v
  enc_dec : ∀ {s o}, o + k ≤ s.length → enc (dec s o) = slice s o k

theorem half_codec : FieldCodec 2 bytes16 le16 := ⟨bytes16_length, le16_append, bytes16_le16⟩

theorem word_codec : FieldCodec 4 bytes32 le32 := ⟨bytes32_length, le32_append, bytes32_le32⟩

section
variable {α : Type} {k : Nat} {enc : α → List Byte} {dec : List Byte → Nat → α}

/-- The fields encoded after `p` are read back from `p`'s length on. -/
theorem FieldCodec.map_dec_flatMap (h : FieldCodec k enc dec) (t : List Byte) (vs : List α) (p : List Byte) :
    (List.range vs.length).map (fun i => dec (p ++ (vs.flatMap enc ++ t)) (p.length + k * i)) = vs := by
  induction vs generalizing p with
  | nil => rfl
  | cons v vs ih =>
    have hrest := ih (p ++ enc v)
    rw [List.length_append, h.length_enc, List.append_assoc] at hrest
    rw [List.length_cons, List.range_succ_eq_map, List.map_cons, List.map_map, List.flatMap_cons, List.append_assoc]
    congr 1
    · exact h.dec_append p _ v
    · refine Eq.trans (List.map_congr_left fun i _ => ?_) hrest
      rw [Function.comp_apply, Nat.succ_eq_add_one, Nat.mul_add_one, Nat.add_assoc, Nat.add_comm k]

/-- The fields read from a part of a sequence are encoded as that part. -/
theorem FieldCodec.flatMap_enc_map (h : FieldCodec k enc dec) {s : List Byte} {o : Nat} (n : Nat)
    (hs : o + k * n ≤ s.length) :
    ((List.range n).map fun i => dec s (o + k * i)).flatMap enc = slice s o (k * n) := by
  induction n with
  | zero => simp
  | succ n ih =>
    rw [Nat.mul_add_one] at hs
    rw [List.range_succ, List.map_append, List.flatMap_append, ih (by omega), List.map_singleton,
      List.flatMap_singleton, h.enc_dec (by omega), slice_append, Nat.mul_add_one]

end

/-! ### The 12-byte head both layouts share -/

/-- The record with the fields of a span's first 12 bytes and the arrays `ext` and `ch`. -/
def prefixRecord (s : List Byte) (ext : List Word) (ch : List Half) : FrameRecord :=
  ⟨le32 s 0, le32 s 4, byteAt s 8, byteAt s 9, le16 s 10, ext, ch⟩

theorem decodeLive_eq (n : Nat) (s : List Byte) :
    decodeLive n s = prefixRecord s [] ((List.range n).map fun i => le16 s (12 + 2 * i)) := rfl

theorem decodeLegacy36_eq (s : List Byte) :
    decodeLegacy36 s = prefixRecord s ((List.range 4).map fun i => le32 s (12 + 4 * i))
      ((List.range 4).map fun i => le16 s (28 + 2 * i)) := rfl

@[simp] theorem encodePrefix_length (r : FrameRecord) : (encodePrefix r).length = 12 := rfl

/-- The head of an encoded record is read back. -/
theorem prefixRecord_encodePrefix (r : FrameRecord) (t : List Byte) :
    prefixRecord (encodePrefix r ++ t) r.ext32 r.ch16 = r := by
  obtain ⟨ts, sq, vm, sb, sol, ext, ch⟩ := r
  simp only [prefixRecord, FrameRecord.mk.injEq, and_true]
  refine ⟨?_, ?_, rfl, rfl, ?_⟩
  · exact le32_append [] _ ts
  · exact le32_append (bytes32 ts) _ sq
  · exact le16_append (bytes32 ts ++ bytes32 sq ++ [vm] ++ [sb]) t sol

/-- The head read from a span is encoded as the span's first 12 bytes. -/
theorem encodePrefix_prefixRecord {s : List Byte} (h : 12 ≤ s.length) (ext : List Word) (ch : List Half) :
    encodePrefix (prefixRecord s ext ch) = slice s 0 12 := by
  simp only [encodePrefix, prefixRecord]
  rw [bytes32_le32 (by omega), bytes32_le32 (by omega), singleton_byteAt (by omega), singleton_byteAt (by omega),
    bytes16_le16 (by omega), slice_append s 0 4, slice_append s 0 8, slice_append s 0 9, slice_append s 0 10]

/-! ### The round trip (40_deserializer.md R118) -/

theorem decodeLive_encodeLive {r : FrameRecord} (h : r.ext32 = []) : decodeLive r.ch16.length (encodeLive r) = r := by
  have hch := half_codec.map_dec_flatMap [] r.ch16 (encodePrefix r)
  rw [List.append_nil, encodePrefix_length] at hch
  rw [decodeLive_eq, encodeLive, hch, ← h, prefixRecord_encodePrefix]

theorem decodeLegacy36_encodeLegacy36 {r : FrameRecord} (he : r.ext32.length = 4) (hc : r.ch16.length = 4) :
    decodeLegacy36 (encodeLegacy36 r) = r := by
  have hext := word_codec.map_dec_flatMap (r.ch16.flatMap bytes16) r.ext32 (encodePrefix r)
  have hch := half_codec.map_dec_flatMap [] r.ch16 (encodePrefix r ++ r.ext32.flatMap bytes32)
  have hlen : (r.ext32.flatMap bytes32).length = 16 := by simp [he]
  rw [he, encodePrefix_length] at hext
  rw [hc, List.append_nil, List.length_append, encodePrefix_length, hlen, List.append_assoc] at hch
  rw [decodeLegacy36_eq, encodeLegacy36, List.append_assoc, hext, hch, prefixRecord_encodePrefix]

theorem encodeLive_decodeLive {n : Nat} {s : List Byte} (h : s.length = 12 + 2 * n) :
    encodeLive (decodeLive n s) = s := by
  calc encodeLive (decodeLive n s)
      = slice s 0 12 ++ slice s 12 (2 * n) :=
        congrArg₂ (· ++ ·) (encodePrefix_prefixRecord (by omega) _ _) (half_codec.flatMap_enc_map n h.ge)
    _ = s := by rw [slice_append s 0 12, slice_all h]

theorem encodeLegacy36_decodeLegacy36 {s : List Byte} (h : s.length = 36) :
    encodeLegacy36 (decodeLegacy36 s) = s := by
  calc encodeLegacy36 (decodeLegacy36 s)
      = slice s 0 12 ++ slice s 12 (4 * 4) ++ slice s 28 (2 * 4) :=
        congrArg₂ (· ++ ·) (congrArg₂ (· ++ ·) (encodePrefix_prefixRecord (by omega) _ _)
          (word_codec.flatMap_enc_map 4 (by omega))) (half_codec.flatMap_enc_map 4 (by omega))
    _ = s := by rw [slice_append s 0 12, slice_append s 0 28, slice_all h]

/-- Settles O30, by the round trips of the head and of an array of fields. -/
theorem deserializerRoundTrip : Obligations.DeserializerRoundTrip := by
  refine ⟨?_, fun _ => decodeLegacy36_encodeLegacy36, fun _ _ => encodeLive_decodeLive,
    fun _ => encodeLegacy36_decodeLegacy36⟩
  rintro n r rfl he
  exact decodeLive_encodeLive he

/-! ### The fields (40_deserializer.md R111, R113, R114) -/

theorem decodeSpan_live {c : Ctrl} (h : c.getLsbD 8 = false) (s : List Byte) :
    decodeSpan c s = decodeLive (c.toNat % 256) s := by
  simp only [decodeSpan, ctrlLayout, layoutBit_eq, h, ctrlNch_toNat, Bool.false_eq_true, if_false]

theorem decodeSpan_legacy {c : Ctrl} (h : c.getLsbD 8 = true) (s : List Byte) :
    decodeSpan c s = decodeLegacy36 s := by
  simp only [decodeSpan, ctrlLayout, layoutBit_eq, h, if_true]

/-- Settles O28: each field is a little-endian value inside the span. -/
theorem decodeLiveFields : Obligations.DecodeLiveFields := by
  rintro c n s hc rfl hs
  rw [decodeSpan_live hc]
  refine ⟨le32_toNat (by omega), le32_toNat (by omega), rfl, rfl, le16_toNat (by omega), rfl, ?_, fun k hk => ?_⟩
  · simp [decodeLive]
  · rw [decodeLive, getD_map_range _ _ hk]
    exact le16_toNat (by omega)

/-- Settles O29: each field is a little-endian value inside the span, whatever `CTRL.NCH` is. -/
theorem decodeLegacy36Fields : Obligations.DecodeLegacy36Fields := by
  intro c s hc hs
  rw [decodeSpan_legacy hc]
  refine ⟨le32_toNat (by omega), le32_toNat (by omega), rfl, rfl, le16_toNat (by omega), rfl, rfl, fun k hk => ?_,
    fun k hk => ?_⟩
  · rw [decodeLegacy36, getD_map_range _ _ hk]
    exact le32_toNat (by omega)
  · rw [decodeLegacy36, getD_map_range _ _ hk]
    exact le16_toNat (by omega)

end Sys2Proof.Machine
end

section
/-! SUPPORT. The live matcher holds the longest proper marker prefix that its input ends with (41_live_sync.md R141):
what it holds decides where the marker occurs, and what it holds after one byte more. -/

namespace Sys2Proof.Machine

variable {m s : List Byte}

/-- Settles O18: `keepUpTo` with the bound `W-1`. -/
theorem keepIsTheLongestMarkerPrefix : Obligations.KeepIsTheLongestMarkerPrefix :=
  fun c s => keepUpTo_greatest (marker c) s (markerWidth c - 1)

/-! ### `KEEP` by the marker prefixes that end a sequence -/

theorem take_keep_suffix (m s : List Byte) : m.take (keep m s) <:+ s :=
  drop_keep m s ▸ List.drop_suffix _ s

theorem le_keep {l : Nat} (hl : l < m.length) (h : m.take l <:+ s) : l ≤ keep m s := by
  have hlen : (m.take l).length = l := List.length_take_of_le hl.le
  have hle := h.length_le
  have hd := List.suffix_iff_eq_drop.1 h
  rw [hlen] at hle hd
  exact (keepUpTo_greatest m s (m.length - 1)).2.2.2 l (by omega) hle hd.symm

/-- `KEEP` depends only on the proper marker prefixes that end a sequence. -/
theorem keep_congr {s' : List Byte} (hm : m ≠ []) (h : ∀ l, l < m.length → (m.take l <:+ s ↔ m.take l <:+ s')) :
    keep m s = keep m s' :=
  le_antisymm (le_keep (keep_lt hm s) ((h _ (keep_lt hm s)).1 (take_keep_suffix m s)))
    (le_keep (keep_lt hm s') ((h _ (keep_lt hm s')).2 (take_keep_suffix m s')))

/-- A proper marker prefix ends a sequence exactly when it ends the kept prefix. -/
theorem take_suffix_iff_keep {l : Nat} (hl : l < m.length) : m.take l <:+ s ↔ m.take l <:+ m.take (keep m s) := by
  refine ⟨fun h => List.suffix_of_suffix_length_le h (take_keep_suffix m s) ?_, (·.trans (take_keep_suffix m s))⟩
  have := le_keep hl h
  simp
  omega

/-- After one byte more, a marker prefix, proper or whole, ends the sequence exactly when it ends the kept prefix and
that byte. -/
theorem take_suffix_append_byte {l : Nat} (hl : l ≤ m.length) (b : Byte) :
    m.take l <:+ s ++ [b] ↔ m.take l <:+ m.take (keep m s) ++ [b] := by
  cases l with
  | zero => simp
  | succ l =>
    have hone : [m[l]].length = [b].length := rfl
    rw [List.take_succ_eq_append_getElem hl, List.suffix_append_inj_of_length_eq hone,
      List.suffix_append_inj_of_length_eq hone, take_suffix_iff_keep hl]

/-- The next kept prefix is that of the kept prefix and the next byte, which is all the matcher holds (R143). -/
theorem keep_append_byte (hm : m ≠ []) (s : List Byte) (b : Byte) :
    keep m (s ++ [b]) = keep m (m.take (keep m s) ++ [b]) :=
  keep_congr hm fun _ hl => take_suffix_append_byte hl.le b

theorem keep_append_byte_le (hm : m ≠ []) (s : List Byte) (b : Byte) : keep m (s ++ [b]) ≤ keep m s + 1 := by
  have h := keep_le_length m (m.take (keep m s) ++ [b])
  rw [← keep_append_byte hm] at h
  simp at h
  omega

/-- The marker ends at the next byte exactly when the kept prefix and that byte are the marker (R143). -/
theorem marker_suffix_append_byte (hm : m ≠ []) (b : Byte) : m <:+ s ++ [b] ↔ m.take (keep m s) ++ [b] = m := by
  have h := take_suffix_append_byte (m := m) (s := s) le_rfl b
  rw [List.take_length] at h
  rw [h]
  refine ⟨fun hs => (hs.eq_of_length_le ?_).symm, fun he => ⟨[], he.symm⟩⟩
  have := keep_lt hm s
  simp
  omega

theorem keep_take_keep (hm : m ≠ []) (s : List Byte) : keep m (m.take (keep m s)) = keep m s :=
  (keep_congr hm fun _ hl => take_suffix_iff_keep hl).symm

/-- `KEEP` looks at the last `W-1` bytes only (R149). -/
theorem keep_drop (hm : m ≠ []) (s : List Byte) : keep m (s.drop (s.length - (m.length - 1))) = keep m s := by
  refine keep_congr hm fun l hl => ⟨(·.trans (List.drop_suffix _ s)), fun h => ?_⟩
  refine List.suffix_of_suffix_length_le h (List.drop_suffix _ s) ?_
  have := h.length_le
  simp at this ⊢
  omega

/-! ### The first occurrence after one byte more -/

theorem firstMarker_eq_none_iff (hm : m ≠ []) : firstMarker m s = none ↔ ¬m <:+: s := by
  rw [firstMarker_eq_none hm, ← not_exists, not_iff_not]
  constructor
  · rintro ⟨i, hi⟩
    exact (List.prefix_iff_eq_take.2 hi.symm).isInfix.trans (List.drop_suffix i s).isInfix
  · rintro ⟨u, v, rfl⟩
    exact ⟨u.length, by simp⟩

theorem firstMarker_append_byte_none (hm : m ≠ []) {b : Byte} (h : firstMarker m s = none)
    (hb : m.take (keep m s) ++ [b] ≠ m) : firstMarker m (s ++ [b]) = none := by
  rw [firstMarker_eq_none_iff hm] at h ⊢
  rw [List.infix_concat_iff, marker_suffix_append_byte hm]
  exact not_or_intro hb h

theorem firstMarker_append_byte_some (hm : m ≠ []) {b : Byte} (h : firstMarker m s = none)
    (hb : m.take (keep m s) ++ [b] = m) : firstMarker m (s ++ [b]) = some (s.length - keep m s) := by
  have hk := keep_le_length m s
  have hlen : keep m s + 1 = m.length := by
    have hl := congrArg List.length hb
    have := keep_lt hm s
    simp at hl
    omega
  have hsuf := List.suffix_iff_eq_drop.1 ((marker_suffix_append_byte hm b).2 hb)
  rw [List.length_append, List.length_singleton] at hsuf
  refine (firstMarker_eq_some hm).2 ⟨by simp; omega, ?_, fun i hi he => ?_⟩
  · rw [show s.length - keep m s = s.length + 1 - m.length by omega, ← hsuf, List.take_length]
  · rw [List.drop_append_of_le_length (by omega), List.take_append_of_le_length (by simp; omega)] at he
    exact (firstMarker_eq_none hm).1 h i he

end Sys2Proof.Machine
end

section
/-! SUPPORT. FEED and EOS in live mode, phase by phase, as equations of the whole state (41_live_sync.md
R142 to R145). -/

namespace Sys2Proof.Machine

variable {s : State}

/-! ### HUNT -/

theorem exec_feed_hunt (b : Byte) (ho : isOffline s.ctrl = false) (hp : s.phase = .hunt) :
    exec (.feed b) s = .next (feedLiveHunt b s.fed) := by
  rw [exec_feed_open b (by simp [hp]), feedUnit_hunt (s := s.fed) b ho hp, finish_ok]

/-- Where the marker is not complete, `KEEP` of the held bytes is left and the others are given up (R143). -/
theorem feedLiveHunt_of_ne {b : Byte} {k : Nat} (hj : s.j.toNat < markerWidth s.ctrl)
    (h : (marker s.ctrl).take s.j.toNat ++ [b] ≠ marker s.ctrl)
    (hk : keep (marker s.ctrl) ((marker s.ctrl).take s.j.toNat ++ [b]) = k) :
    feedLiveHunt b s = { s with
      gap := s.gap + BitVec.ofNat 32 (s.j.toNat + 1 - k)
      discarded := s.discarded + BitVec.ofNat 32 (s.j.toNat + 1 - k), j := BitVec.ofNat 2 k } := by
  have hl : ((marker s.ctrl).take s.j.toNat ++ [b]).length = s.j.toNat + 1 := by simp; omega
  simp only [feedLiveHunt, if_neg h, hl, hk]

/-- When the marker `AA 55` is complete (41_live_sync.md R142). -/
theorem held_eq_marker_live {c : Ctrl} {n : Nat} {b : Byte} (hm : ctrlMarker c = false) (hn : n = 0 ∨ n = 1) :
    (marker c).take n ++ [b] = marker c ↔ n = 1 ∧ b = 0x55#8 := by
  rw [marker_live hm]
  rcases hn with rfl | rfl <;> simp

/-- When the marker `A5 A5 A5 A5` is complete (R142). -/
theorem held_eq_marker_legacy {c : Ctrl} {n : Nat} {b : Byte} (hm : ctrlMarker c = true) (hn : n < 4) :
    (marker c).take n ++ [b] = marker c ↔ n = 3 ∧ b = 0xA5#8 := by
  rw [marker_legacy hm]
  interval_cases n <;> simp

/-- The kept prefix for the marker `AA 55` (R142). -/
theorem keep_held_live {c : Ctrl} {n : Nat} {b : Byte} (hm : ctrlMarker c = false) (hn : n = 0 ∨ n = 1) :
    keep (marker c) ((marker c).take n ++ [b]) = if b = 0xAA#8 then 1 else 0 := by
  rw [marker_live hm]
  rcases hn with rfl | rfl <;> simp [keep, keepUpTo]

/-- The kept prefix for the marker `A5 A5 A5 A5` (R142). -/
theorem keep_held_legacy {c : Ctrl} {n : Nat} {b : Byte} (hm : ctrlMarker c = true) (hn : n < 4)
    (h : n ≠ 3 ∨ b ≠ 0xA5#8) :
    keep (marker c) ((marker c).take n ++ [b]) = if b = 0xA5#8 then n + 1 else 0 := by
  rw [marker_legacy hm]
  by_cases hb : b = 0xA5#8 <;> interval_cases n <;> simp_all [keep, keepUpTo]

/-- Settles O19: the held bytes and the next one are the marker, or `KEEP` of them is left. -/
theorem liveHuntStep : Obligations.LiveHuntStep := by
  refine ⟨fun b s ho hp hm h => ?_, fun b s ho hp hm h => ?_, fun b s ho hp h => ?_⟩ <;> rw [exec_feed_hunt b ho hp]
  · have hj : s.j.toNat = 0 ∨ s.j.toNat = 1 := by rcases h with h | ⟨h, -⟩ <;> simp [h]
    have hne : (marker s.ctrl).take s.j.toNat ++ [b] ≠ marker s.ctrl := by
      rw [ne_eq, held_eq_marker_live hm hj]
      rcases h with h | ⟨-, hb⟩
      · simp [h]
      · exact fun he => hb he.2
    rw [feedLiveHunt_of_ne (s := s.fed) (by simp only [markerWidth_live hm]; omega) hne (keep_held_live hm hj)]
    by_cases hb : b = 0xAA#8 <;> simp [hb, BitVec.ofNat_add]
  · have hj := s.j.isLt
    have hn : s.j.toNat ≠ 3 ∨ b ≠ 0xA5#8 := h.imp_left fun h3 he => h3 (BitVec.eq_of_toNat_eq he)
    have hne : (marker s.ctrl).take s.j.toNat ++ [b] ≠ marker s.ctrl := by
      rw [ne_eq, held_eq_marker_legacy hm hj]
      exact not_and_or.2 hn
    rw [feedLiveHunt_of_ne (s := s.fed) (by simp only [markerWidth_legacy hm]; omega) hne (keep_held_legacy hm hj hn)]
    by_cases hb : b = 0xA5#8 <;> simp [hb, BitVec.ofNat_add]
  · have hheld : (marker s.ctrl).take s.j.toNat ++ [b] = marker s.ctrl := by
      rcases h with ⟨hm, hj, hb⟩ | ⟨hm, hj, hb⟩
      · exact (held_eq_marker_live hm (by simp [hj])).2 ⟨by simp [hj], hb⟩
      · exact (held_eq_marker_legacy hm s.j.isLt).2 ⟨by simp [hj], hb⟩
    rw [feedLiveHunt_acquires (s := s.fed) hheld, reportGap]
    by_cases hg : s.gap = 0#32 <;> simp [hg, emit]

/-! ### COLLECT -/

theorem exec_feed_collect (b : Byte) (ho : isOffline s.ctrl = false) (hp : s.phase = .collect) :
    exec (.feed b) s = finish (feedLiveCollect b s.fed) := by
  rw [exec_feed_open b (by simp [hp]), feedUnit_collect (s := s.fed) b ho (by simp [hp])]

/-- Settles O20: the canonical buffer takes the byte, and a whole frame is read back with it at its end. -/
theorem liveCollectStoresAndEmits : Obligations.LiveCollectStoresAndEmits := by
  intro b s ho hp hm hf
  rw [exec_feed_collect b ho hp, feedLiveCollect_ok (s := s.fed) b hm hf, finish_ok]

/-! ### End of stream -/

theorem exec_eos_live (ho : isOffline s.ctrl = false) (hp : s.phase ≠ .closed) :
    exec .eos s = .next (eosLive s.ended) := by
  rw [exec_eos_open hp, eosUnit_live (s := s.ended) ho, finish_ok]

/-- Settles O21: the held bytes are `J` of them in HUNT, and the marker and `FCNT` more in COLLECT. -/
theorem liveEosCloses : Obligations.LiveEosCloses := by
  refine ⟨fun s ho hp => ?_, fun s ho hp => ?_⟩ <;> rw [exec_eos_live ho (by simp [hp])]
  · simp [eosLive, emit, hp]
  · cases hm : ctrlMarker s.ctrl
    · simp [eosLive, emit, hp, markerWidth_live hm, BitVec.ofNat_add]
    · simp [eosLive, emit, hp, markerWidth_legacy hm, BitVec.ofNat_add]

end Sys2Proof.Machine
end

section
/-! SUPPORT. What FEED and EOS store to and what they leave unchanged (41_live_sync.md R143 to R145,
42_offline_splitter.md R176 to R180): COMMIT stores at `FCNT`, which goes on to the next address of the frame or to 0. -/

namespace Sys2Proof.Machine

variable {s t : State}

/-! ### The addresses COMMIT stores to -/

theorem storeAddr_zero (hf : s.fcnt.toNat < frameSize s.ctrl) : storeAddr s 0 = s.fcnt.toNat := Nat.mod_eq_of_lt hf

/-- After COMMIT in a session the buffer is canonical, `FCNT` is the next address stored to, and only the byte at the
first one has changed. -/
theorem commit_session_stores {x : Byte} (hp : s.phase = .collect) (hm : s.fb.wf = true)
    (hf : s.fcnt.toNat < frameSize s.ctrl) (h : commit x s = .ok t) :
    t.fb.wf = true ∧ t.fcnt.toNat = storeAddr s 1 ∧ ∀ a, a ≠ storeAddr s 0 → t.fb.read a = s.fb.read a := by
  have hle := frameSize_le s.ctrl
  have hw := Memory.write_wf hm (a := s.fcnt.toNat) (by rw [fsMax_eq]; omega) x
  rw [commit_session x (by simp [hp]) hm hf] at h
  cases h
  rw [storeAddr_zero hf]
  have hread : ∀ a, a ≠ s.fcnt.toNat → (s.fb.write s.fcnt.toNat x).read a = s.fb.read a := fun a ha => by
    rw [Memory.read_write hm, if_neg ha]
  split
  · next hlast => exact ⟨hw, by simp [storeAddr, hlast], hread⟩
  · next hlast =>
    exact ⟨hw, by rw [storeAddr, Nat.mod_eq_of_lt (by omega)]; exact fcnt_succ hf hle, hread⟩

/-- COMMIT of several bytes in a session changes nothing outside the addresses it stores to. -/
theorem commitAll_session_read {a : Nat} {bs : List Byte} : ∀ {s : State}, s.phase = .collect → s.fb.wf = true →
    s.fcnt.toNat < frameSize s.ctrl → commitAll bs s = .ok t → (∀ k, k < bs.length → a ≠ storeAddr s k) →
    t.fb.read a = s.fb.read a := by
  induction bs with
  | nil =>
    intro s _ _ _ h _
    cases h
    rfl
  | cons x l ih =>
    intro s hp hm hf h ha
    rw [commitAll_cons] at h
    cases hx : commit x s with
    | error f => rw [hx] at h; cases h
    | ok u =>
      rw [hx] at h
      obtain ⟨hctrl, hphase, -⟩ := commitAll_fields (bs := [x]) (s := s) (t := u) (by rw [commitAll_cons, hx]; rfl)
      obtain ⟨hw, hfcnt, hread⟩ := commit_session_stores hp hm hf hx
      have hlt : u.fcnt.toNat < frameSize u.ctrl := by
        rw [hfcnt, hctrl]
        exact Nat.mod_lt _ (by omega)
      have hnext : ∀ k, storeAddr u k = storeAddr s (k + 1) := fun k => by
        rw [storeAddr, hctrl, hfcnt, storeAddr, storeAddr, Nat.mod_add_mod, Nat.add_assoc, Nat.add_comm 1]
      calc t.fb.read a
          = u.fb.read a := ih (hphase.trans hp) hw hlt h fun k hk => hnext k ▸ ha (k + 1) (by simpa using hk)
        _ = s.fb.read a := hread a (ha 0 (by simp))

/-- COMMIT of several bytes stores as many in a session, and none in PREAMBLE. -/
theorem commitAll_read {a : Nat} {bs : List Byte} (hp : s.phase ≠ .closed) (hm : s.fb.wf = true)
    (hf : s.fcnt.toNat < frameSize s.ctrl) (h : commitAll bs s = .ok t)
    (ha : s.phase = .collect → ∀ k, k < bs.length → a ≠ storeAddr s k) : t.fb.read a = s.fb.read a := by
  by_cases hc : s.phase = .collect
  · exact commitAll_session_read hc hm hf h (ha hc)
  · rw [commitAll_preamble bs (Phase.eq_hunt hc hp)] at h
    cases h
    rfl

/-! ### FEED -/

/-- Settles O26, by the operation that takes the byte. -/
theorem feedFrame : Obligations.FeedFrame := by
  intro b s t hm hf h
  by_cases hp : s.phase = .closed
  · rw [exec_feed_closed b hp] at h
    cases h
    simp [hp]
  rw [exec_feed_open b hp, finish_eq_next] at h
  rcases feedUnit_cases h with ⟨ho, hh, rfl⟩ | ⟨ho, hh, hc⟩ | ⟨ho, rfl, rfl⟩ | ⟨ho, hb, hc⟩
  · replace ho : isOffline s.ctrl = false := ho
    rcases feedLiveHunt_cases b s.fed with ⟨-, he⟩ | ⟨-, he⟩ | ⟨d, k, he⟩ <;> simp [he, ho]
  · replace ho : isOffline s.ctrl = false := ho
    have hstores : ∀ a, a ∉ feedStores b s → (s.fb.write s.fcnt.toNat b).read a = s.fb.read a := fun a ha => by
      rw [feedStores_live (s := s) b (Phase.eq_collect hh hp) ho, storeAddr_zero hf, List.mem_singleton] at ha
      rw [Memory.read_write hm, if_neg ha]
    rcases feedLiveCollect_cases hc with rfl | ⟨r, rfl⟩ <;> simpa [ho] using hstores
  · replace ho : isOffline s.ctrl = true := ho
    rcases feedOfflineA5_cases s.fed with ⟨k, he⟩ | ⟨-, he⟩ | ⟨-, he⟩ <;> simp [he, ho]
  · obtain ⟨hctrl, -, -, -, hcfg, hill, hclose, hno, hresync, hlast, -, -, -, hin⟩ := commitAll_fields hc
    refine ⟨fun a ha => ?_, hctrl, hcfg, hill, hno, hin, fun _ => hclose, fun hl => ?_, fun _ => ⟨hresync, hlast⟩⟩
    · refine commitAll_read (s := { s.fed with j := 0#2 }) hp hm hf hc fun hcol k hk he => ha ?_
      rw [feedStores_session (s := s) hcol ho hb]
      exact List.mem_map.2 ⟨k, by simpa using hk, he.symm⟩
    · cases ho.symm.trans hl

/-! ### EOS -/

/-- Settles O27, by the operation that ends the stream. -/
theorem eosFrame : Obligations.EosFrame := by
  intro s t hm hf h
  by_cases hp : s.phase = .closed
  · rw [exec_eos_closed hp] at h
    cases h
    simp [hp]
  rw [exec_eos_open hp, finish_eq_next] at h
  rcases eosUnit_cases h with ⟨ho, rfl⟩ | ⟨ho, u, hc, rfl⟩
  · simp [eosLive]
  · obtain ⟨hctrl, hphase, -, -, hcfg, hill, hclose, -, hresync, hlast, hsess, hbytes, -, hin⟩ := commitAll_fields hc
    have hfb : ∀ a, a ∉ eosStores s → u.fb.read a = s.fb.read a := fun a ha => by
      refine commitAll_read (s := { s.ended with j := 0#2 }) hp hm hf hc fun hcol k hk he => ha ?_
      rw [eosStores, if_pos ⟨hcol, ho⟩]
      exact List.mem_map.2 ⟨k, by simpa using hk, he.symm⟩
    replace ho : isOffline s.ctrl = true := ho
    rcases endCapture_cases u with ⟨-, he⟩ | ⟨-, he⟩ <;> simp_all

end Sys2Proof.Machine
end

section
/-! SUPPORT. The live synchronizer refines an unbounded buffer that takes the first occurrence of the marker after each
frame and gives nothing up on an empty search (41_live_sync.md R146): the state of the block after the bytes since the
last frame, kept by every FEED. -/

namespace Sys2Proof.Machine

variable {c : Ctrl} {g k : Nat} {B : List Byte} {out : List Event} {s t : State}

/-- What an acquisition reports (41_live_sync.md R143). -/
def gapReport (gap : Counter) : List Event := if gap = 0#32 then [] else [.resync gap]

theorem reportGap_output (s : State) : (reportGap s).output = s.output ++ gapReport s.gap := by
  by_cases h : s.gap = 0#32 <;> simp [reportGap, gapReport, h]

theorem gapReport_ofNat (h : k < 2 ^ 32) :
    gapReport (BitVec.ofNat 32 k) = if k = 0 then [] else [.resync (BitVec.ofNat 32 k)] := by
  have hk : BitVec.ofNat 32 k = 0#32 ↔ k = 0 := by
    rw [← BitVec.toNat_inj, BitVec.toNat_ofNat, Nat.mod_eq_of_lt h]
    simp
  simp only [gapReport, hk]

theorem filterMap_record_gapReport (gap : Counter) : (gapReport gap).filterMap Event.record? = [] := by
  unfold gapReport
  split <;> rfl

/-! ### The block after the bytes since the last frame -/

/-- The block hunts: of the bytes `B` since the last frame, in which no marker occurs, it holds the kept prefix, and
`GAP` counts the others and `g` bytes given up before them. `out` is the trace at the last frame. -/
structure Hunts (c : Ctrl) (g : Nat) (B : List Byte) (out : List Event) (s : State) : Prop where
  ctrl : s.ctrl = c
  inv : s.Inv
  phase : s.phase = .hunt
  noMarker : firstMarker (marker c) B = none
  held : s.j.toNat = keep (marker c) B
  gap : s.gap = BitVec.ofNat 32 (g + (B.length - keep (marker c) B))
  output : s.output = out

/-- The block collects: the bytes `B` since the last frame have the marker at `k`, `FB` holds those after it, and what
came before it, with the `g` bytes given up earlier, is reported. -/
structure Collects (c : Ctrl) (g k : Nat) (B : List Byte) (out : List Event) (s : State) : Prop where
  ctrl : s.ctrl = c
  inv : s.Inv
  phase : s.phase = .collect
  atMarker : firstMarker (marker c) B = some k
  payload : s.fb.span 0 s.fcnt.toNat = B.drop (k + markerWidth c)
  output : s.output = out ++ gapReport (BitVec.ofNat 32 (g + k))

/-- The block stands for the unbounded buffer `B`: it hunts in it or collects from it. -/
def Buffered (c : Ctrl) (g : Nat) (B : List Byte) (out : List Event) (s : State) : Prop :=
  Hunts c g B out s ∨ ∃ k, Collects c g k B out s

theorem Hunts.withInput (h : Hunts c g B out s) (r : List Input) : Hunts c g B out { s with input := r } :=
  ⟨h.ctrl, h.inv.withInput r, h.phase, h.noMarker, h.held, h.gap, h.output⟩

theorem Collects.withInput (h : Collects c g k B out s) (r : List Input) : Collects c g k B out { s with input := r } :=
  ⟨h.ctrl, h.inv.withInput r, h.phase, h.atMarker, h.payload, h.output⟩

theorem Buffered.withInput (h : Buffered c g B out s) (r : List Input) : Buffered c g B out { s with input := r } :=
  h.imp (·.withInput r) fun ⟨k, h⟩ => ⟨k, h.withInput r⟩

theorem Buffered.inv (h : Buffered c g B out s) : s.Inv := h.elim (·.inv) fun ⟨_, h⟩ => h.inv

theorem Collects.length_eq (h : Collects c g k B out s) : B.length = k + markerWidth c + s.fcnt.toNat := by
  have hle := ((firstMarker_eq_some (marker_ne_nil c)).1 h.atMarker).1
  have hlen := congrArg List.length h.payload
  simp at hle hlen
  omega

/-- The buffer holds no whole frame. -/
theorem Buffered.length_lt (h : Buffered c g B out s) (hk : firstMarker (marker c) B = some k) :
    B.length < k + markerWidth c + frameSize c := by
  rcases h with h | ⟨k', h⟩
  · cases h.noMarker.symm.trans hk
  · cases h.atMarker.symm.trans hk
    have := h.inv.fcntBelow
    rw [h.ctrl] at this
    have := h.length_eq
    omega

/-- The records of the frames are those at the last frame. -/
theorem Buffered.records (h : Buffered c g B out s) :
    s.output.filterMap Event.record? = out.filterMap Event.record? := by
  rcases h with h | ⟨k, h⟩
  · rw [h.output]
  · rw [h.output, List.filterMap_append, filterMap_record_gapReport, List.append_nil]

/-- At a frame's end, and after reset, the buffer is empty. -/
theorem hunts_nil (hc : s.ctrl = c) (hi : s.Inv) (hp : s.phase = .hunt) (hj : s.j = 0#2) (hg : s.gap = 0#32) :
    Hunts c 0 [] s.output s where
  ctrl := hc
  inv := hi
  phase := hp
  noMarker := rfl
  held := by simp [hj, Nat.le_zero.1 (keep_le_length (marker c) [])]
  gap := by simp [hg]
  output := rfl

theorem buffered_reset (c : Ctrl) (i : List Input) (past : List Event) :
    Buffered c 0 [] past { State.reset with ctrl := c, input := i, output := past } :=
  .inl (hunts_nil rfl (inv_of_unlocked c false i past) rfl rfl rfl)

/-! ### FEED -/

theorem exec_keeps_inv {i : Instr} (h : s.Inv) (ht : exec i s = .next t) : t.Inv := by
  obtain ⟨u, hu, hi⟩ := everyInstructionCompletes i s h
  cases ht.symm.trans hu
  exact hi

/-- FEED in HUNT (41_live_sync.md R143) of the byte that completes the first occurrence of the marker. -/
theorem Hunts.feed_acquires {b : Byte} (ho : isOffline c = false) (h : Hunts c g B out s)
    (hb : (marker c).take (keep (marker c) B) ++ [b] = marker c) :
    ∃ t, exec (.feed b) s = .next t ∧ Collects c g (B.length - keep (marker c) B) (B ++ [b]) out t := by
  obtain ⟨rfl, hi, hp, hno, hj, hg, hout⟩ := h
  have hm := marker_ne_nil s.ctrl
  have hexec := exec_feed_hunt b ho hp
  rw [feedLiveHunt_acquires (s := s.fed) (by rw [← hj] at hb; exact hb)] at hexec
  refine ⟨_, hexec, (reportGap_accounts _).1, exec_keeps_inv hi hexec, rfl,
    firstMarker_append_byte_some hm hno hb, ?_, ?_⟩
  · have := keep_lt hm B
    rw [marker_length] at this
    rw [List.drop_eq_nil_of_le (by simp; omega)]
    rfl
  · exact (reportGap_output _).trans (by rw [← hout, ← hg])

/-- FEED in HUNT (R143) of a byte with which no marker occurs yet. -/
theorem Hunts.feed_discards {b : Byte} (ho : isOffline c = false) (h : Hunts c g B out s)
    (hb : (marker c).take (keep (marker c) B) ++ [b] ≠ marker c) :
    ∃ t, exec (.feed b) s = .next t ∧ Hunts c g (B ++ [b]) out t := by
  obtain ⟨rfl, hi, hp, hno, hj, hg, hout⟩ := h
  have hm := marker_ne_nil s.ctrl
  have hkeep : keep (marker s.ctrl) ((marker s.ctrl).take s.j.toNat ++ [b]) = keep (marker s.ctrl) (B ++ [b]) := by
    rw [hj, ← keep_append_byte hm]
  have hexec := exec_feed_hunt b ho hp
  rw [feedLiveHunt_of_ne (s := s.fed) (hi.liveHunt ho hp) (by rw [← hj] at hb; exact hb) hkeep] at hexec
  refine ⟨_, hexec, rfl, exec_keeps_inv hi hexec, hp, firstMarker_append_byte_none hm hno hb, ?_, ?_, hout⟩
  · have := markerWidth_cases s.ctrl
    have := keep_lt hm (B ++ [b])
    rw [marker_length] at this
    exact Nat.mod_eq_of_lt (by omega)
  · change s.gap + BitVec.ofNat 32 (s.j.toNat + 1 - _) = _
    have := keep_le_length (marker s.ctrl) B
    have := keep_append_byte_le hm B b
    rw [hg, ← BitVec.ofNat_add, hj, List.length_append, List.length_singleton]
    congr 1
    omega

/-- FEED in COLLECT (41_live_sync.md R144): the byte completes the frame, or is one more of it. -/
theorem Collects.feed (ho : isOffline c = false) (h : Collects c g k B out s) (b : Byte) :
    ∃ t, exec (.feed b) s = .next t ∧ (Buffered c g (B ++ [b]) out t ∨
      (B ++ [b]).length = k + markerWidth c + frameSize c ∧
        Buffered c 0 [] (out ++ gapReport (BitVec.ofNat 32 (g + k)) ++
          [.frame 0#32 (decodeSpan c ((B ++ [b]).drop (k + markerWidth c)))]) t) := by
  have hlen := h.length_eq
  obtain ⟨rfl, hi, hp, hmark, hpay, hout⟩ := h
  have hm := marker_ne_nil s.ctrl
  have hexec := liveCollectStoresAndEmits b s ho hp hi.fbCanonical hi.fcntBelow
  have hdrop : (B ++ [b]).drop (k + markerWidth s.ctrl) = B.drop (k + markerWidth s.ctrl) ++ [b] :=
    List.drop_append_of_le_length (by omega)
  by_cases hlast : s.fcnt.toNat + 1 = frameSize s.ctrl
  · rw [if_pos hlast] at hexec
    refine ⟨_, hexec, .inr ⟨by simp; omega, .inl ?_⟩⟩
    rw [← hout, hdrop, ← hpay]
    exact hunts_nil rfl (exec_keeps_inv hi hexec) rfl rfl (hi.collectGap hp)
  · rw [if_neg hlast] at hexec
    refine ⟨_, hexec, .inl (.inr ⟨k, rfl, exec_keeps_inv hi hexec, hp, firstMarker_append hm hmark [b], ?_, hout⟩)⟩
    rw [hdrop, ← hpay]
    simp only [fcnt_succ hi.fcntBelow (frameSize_le s.ctrl)]
    exact Memory.span_write_end hi.fbCanonical _ b

/-- FEED (R143, R144): the byte is one more of the buffer, or completes a frame and the buffer is empty again. -/
theorem Buffered.feed (ho : isOffline c = false) (h : Buffered c g B out s) (b : Byte) :
    ∃ t, exec (.feed b) s = .next t ∧ (Buffered c g (B ++ [b]) out t ∨
      ∃ k, firstMarker (marker c) (B ++ [b]) = some k ∧ (B ++ [b]).length = k + markerWidth c + frameSize c ∧
        Buffered c 0 [] (out ++ gapReport (BitVec.ofNat 32 (g + k)) ++
          [.frame 0#32 (decodeSpan c ((B ++ [b]).drop (k + markerWidth c)))]) t) := by
  rcases h with h | ⟨k, h⟩
  · by_cases hb : (marker c).take (keep (marker c) B) ++ [b] = marker c
    · obtain ⟨t, ht, hc⟩ := h.feed_acquires ho hb
      exact ⟨t, ht, .inl (.inr ⟨_, hc⟩)⟩
    · obtain ⟨t, ht, hh⟩ := h.feed_discards ho hb
      exact ⟨t, ht, .inl (.inl hh)⟩
  · obtain ⟨t, ht, hb⟩ := h.feed ho b
    exact ⟨t, ht, hb.imp_right fun ⟨hlen, hb⟩ => ⟨k, firstMarker_append (marker_ne_nil c) h.atMarker [b], hlen, hb⟩⟩

/-! ### A whole stream -/

/-- The unbounded buffer `S`, with `g` bytes given up before it, takes frames at the first occurrences of the marker,
reports `es`, and leaves `B`, with `g'` bytes given up before it (R146). -/
inductive Takes (c : Ctrl) : Nat → List Byte → List Event → Nat → List Byte → Prop where
  | rest (g : Nat) (S : List Byte) : Takes c g S [] g S
  | frame {g k g' : Nat} {S B : List Byte} {es : List Event} (hk : firstMarker (marker c) S = some k)
      (hlen : frameSize c ≤ (S.drop (k + markerWidth c)).length)
      (h : Takes c 0 ((S.drop (k + markerWidth c)).drop (frameSize c)) es g' B) :
      Takes c g S (gapReport (BitVec.ofNat 32 (g + k)) ++
        .frame 0#32 (decodeSpan c ((S.drop (k + markerWidth c)).take (frameSize c))) :: es) g' B

/-- A frame that ends where `P` ends is taken first, whatever follows. -/
theorem Takes.frame_append {P T : List Byte} {g' : Nat} {es : List Event} (hk : firstMarker (marker c) P = some k)
    (hlen : P.length = k + markerWidth c + frameSize c) (h : Takes c 0 T es g' B) :
    Takes c g (P ++ T) (gapReport (BitVec.ofNat 32 (g + k)) ++
      .frame 0#32 (decodeSpan c (P.drop (k + markerWidth c))) :: es) g' B := by
  have hp : (P.drop (k + markerWidth c)).length = frameSize c := by simp; omega
  have hd : (P ++ T).drop (k + markerWidth c) = P.drop (k + markerWidth c) ++ T :=
    List.drop_append_of_le_length (by omega)
  have := Takes.frame (g := g) (firstMarker_append (marker_ne_nil c) hk T) (by simp [hd]; omega)
    (by rw [hd, List.drop_left' hp]; exact h)
  rwa [hd, List.take_left' hp] at this

theorem step_feed {b : Byte} {T : List Byte} {rest : List Input} (hi : s.input = feedInput (b :: T) ++ rest) :
    step s = exec (.feed b) { s with input := feedInput T ++ rest } := by
  rw [step_token (rest := feedInput T ++ rest) hi, runToken, decode,
    decodeOfEncodeIsTheInstruction Config.hasOffline (.feed b) rfl]

/-- A stream fed byte by byte: the block stands for what the unbounded buffer leaves of it, with the events that buffer
reports. -/
theorem run_feeds (ho : isOffline c = false) (rest : List Input) (T : List Byte) :
    ∀ {g : Nat} {B : List Byte} {out : List Event} {s : State}, Buffered c g B out s → s.input = feedInput T ++ rest →
      ∃ t es g' B', Sys2Proof.core.run T.length s = .next t ∧ t.input = rest ∧ Takes c g (B ++ T) es g' B' ∧
        Buffered c g' B' (out ++ es) t := by
  induction T with
  | nil =>
    intro g B out s h hi
    exact ⟨s, [], g, B, rfl, hi, by simpa using Takes.rest g B, by simpa using h⟩
  | cons b T ih =>
    intro g B out s h hi
    have hs := h.withInput (feedInput T ++ rest)
    obtain ⟨u, hu, hb⟩ := hs.feed ho b
    obtain ⟨-, -, -, -, -, hin, -⟩ := feedFrame b _ u hs.inv.fbCanonical hs.inv.fcntBelow hu
    have hrun := run_next (n := T.length) ((step_feed hi).trans hu)
    rcases hb with hb | ⟨k, hk, hlen, hb⟩
    · obtain ⟨t, es, g', B', ht, hrest, htakes, hb'⟩ := ih hb hin
      exact ⟨t, es, g', B', hrun.trans ht, hrest, by simpa using htakes, hb'⟩
    · obtain ⟨t, es, g', B', ht, hrest, htakes, hb'⟩ := ih hb hin
      have := Takes.frame_append (g := g) hk hlen htakes
      exact ⟨t, _, g', B', hrun.trans ht, hrest, by simpa using this, by simpa using hb'⟩

end Sys2Proof.Machine
end

section
/-! SUPPORT. Whole live streams (41_live_sync.md R146 to R149): what the block stands for after a stream is read off the
unbounded buffer, and compared with the events of a closed stream and with the document's loop. -/

namespace Sys2Proof.Machine

variable {c : Ctrl} {g g' k : Nat} {S B : List Byte} {es out : List Event} {s t : State}

theorem flatMap_feedInput (chunks : List (List Byte)) : chunks.flatMap feedInput = feedInput chunks.flatten := by
  induction chunks with
  | nil => rfl
  | cons x l ih => simp [ih, feedInput, feedTokens]

/-- A stream fed from a fresh state. -/
theorem run_fresh (ho : isOffline c = false) (S : List Byte) (rest : List Input) (past : List Event) :
    ∃ t es g' B, Sys2Proof.core.run S.length
        ({ State.reset with ctrl := c, input := feedInput S ++ rest, output := past } : State) = .next t ∧
      t.input = rest ∧ Takes c 0 S es g' B ∧ Buffered c g' B (past ++ es) t :=
  run_feeds ho rest S (buffered_reset c _ past) rfl

/-! ### No marker, and one frame -/

theorem Takes.of_noMarker (h : Takes c g S es g' B) (hno : firstMarker (marker c) S = none) :
    es = [] ∧ g' = g ∧ B = S := by
  cases h with
  | rest => exact ⟨rfl, rfl, rfl⟩
  | frame hk => cases hno.symm.trans hk

/-- Settles O51: nothing is taken from the buffer, so the block hunts in the whole stream. -/
theorem streamWithoutMarkerGivesNothing : Obligations.StreamWithoutMarkerGivesNothing := by
  intro c S ho hno
  obtain ⟨t, es, g', B, ht, -, htakes, hb⟩ := run_fresh ho S [] []
  rw [List.append_nil] at ht
  obtain ⟨rfl, rfl, rfl⟩ := htakes.of_noMarker hno
  rcases hb with h | ⟨k, h⟩
  · have hheld : heldBytes t = t.j.toNat := by simp [heldBytes, h.phase, h.ctrl, ho]
    refine ⟨t, ht, h.output, h.phase, hheld, ?_, h.held⟩
    rw [← marker_length, keep_drop (marker_ne_nil c), h.held]
  · cases hno.symm.trans h.atMarker

/-- Settles O52: the frame ends with the stream, so it is taken and the buffer is empty. -/
theorem garbageThenFrameDecodesOnce : Obligations.GarbageThenFrameDecodesOnce := by
  intro c g p chunks ho hflat hp hmark hg
  have hk := firstMarker_append (marker_ne_nil c) hmark p
  obtain ⟨t, es, g', B, ht, -, htakes, hb⟩ := run_fresh ho chunks.flatten [] []
  rw [List.append_nil, ← flatMap_feedInput] at ht
  refine ⟨t, ht, ?_⟩
  rw [hflat] at htakes
  cases htakes with
  | rest =>
    have := hb.length_lt hk
    simp at this
    omega
  | frame hk' _ hrest =>
    cases hk.symm.trans hk'
    have hdrop : (g ++ marker c ++ p).drop (g.length + markerWidth c) = p := List.drop_left' (by simp)
    rw [hdrop, ← hp, List.drop_length] at hrest
    obtain ⟨rfl, rfl, rfl⟩ := hrest.of_noMarker rfl
    rw [hdrop, ← hp, List.take_length, Nat.zero_add, gapReport_ofNat hg] at hb
    rcases hb with h | ⟨k, h⟩
    · simpa using h.output
    · cases h.atMarker

/-! ### A closed stream -/

/-- The frames the buffer takes are the first ones of the closed stream's events (R146). -/
theorem Takes.streamLoop_eq (h : Takes c g S es g' B) : ∀ {fuel : Nat}, g = 0 → S.length < 2 ^ 32 → S.length < fuel →
    ∃ fuel', g' = 0 ∧ B.length < 2 ^ 32 ∧ streamLoop c fuel S = es ++ streamLoop c (fuel' + 1) B := by
  induction h with
  | rest g S => exact fun {fuel} hg hS hf => ⟨fuel - 1, hg, hS, by rw [Nat.sub_add_cancel (by omega), List.nil_append]⟩
  | @frame g k g' S B es hk hlen _ ih =>
    rintro (_ | fuel) rfl hS hf
    · omega
    · have hle := ((firstMarker_eq_some (marker_ne_nil c)).1 hk).1
      have hW := markerWidth_cases c
      rw [marker_length] at hle
      obtain ⟨fuel', hg', hB, he⟩ := ih (fuel := fuel) rfl (by simp; omega) (by simp; omega)
      refine ⟨fuel', hg', hB, ?_⟩
      rw [Nat.zero_add, gapReport_ofNat (by omega), streamLoop, hk]
      simp only [if_neg (not_lt.2 hlen), he, List.append_assoc, List.cons_append]

/-- EOS in live mode (41_live_sync.md R145) reports the bytes left in the buffer, as the closed stream does. -/
theorem Buffered.eos (ho : isOffline c = false) (h : Buffered c 0 B out s) (hB : B.length < 2 ^ 32) (fuel : Nat) :
    ∃ t, exec .eos s = .next t ∧ t.output = out ++ streamLoop c (fuel + 1) B ∧ t.phase = .closed := by
  rcases h with ⟨rfl, hi, hp, hno, hj, hg, hout⟩ | ⟨k, h⟩
  · refine ⟨_, liveEosCloses.1 s ho hp, ?_, rfl⟩
    have hk := keep_le_length (marker s.ctrl) B
    have hsum : s.gap + s.j.setWidth 32 = BitVec.ofNat 32 B.length := by
      rw [← BitVec.ofNat_toNat, hg, hj, ← BitVec.ofNat_add]
      congr 1
      omega
    simp only [streamLoop, hno, hout, hsum]
  · have hlen := h.length_eq
    have hlt := h.inv.fcntBelow
    obtain ⟨rfl, hi, hp, hmark, hpay, hout⟩ := h
    refine ⟨_, exec_eos_live ho (by simp [hp]), ?_, rfl⟩
    have hdrop : (B.drop (k + markerWidth s.ctrl)).length = s.fcnt.toNat := by simp; omega
    rw [Nat.zero_add, gapReport_ofNat (by omega)] at hout
    simp only [streamLoop, hmark, hdrop, if_pos hlt, eosLive, emit_output, hp, hi.collectGap hp, hout]
    simp

theorem step_eos {rest : List Input} (hi : s.input = eosInput :: rest) :
    step s = exec .eos { s with input := rest } := by
  rw [step_token (t := encode .eos) hi, runToken, decode, decodeOfEncodeIsTheInstruction Config.hasOffline .eos rfl]

/-- Settles O49: the frames taken, and EOS for what is left. -/
theorem liveRunTakesTheFirstMarkers : Obligations.LiveRunTakesTheFirstMarkers := by
  intro c S past ho hS
  obtain ⟨t, es, g', B, ht, hi, htakes, hb⟩ := run_fresh ho S [eosInput] past
  obtain ⟨fuel, rfl, hB, hev⟩ := htakes.streamLoop_eq (fuel := S.length + 1) rfl hS (by omega)
  obtain ⟨u, hu, hout, hphase⟩ := (hb.withInput []).eos ho hB fuel
  refine ⟨u, (run_add ht).trans (run_one ((step_eos hi).trans hu)), ?_, hphase⟩
  rw [hout, streamEvents, hev, List.append_assoc]

/-! ### The document's loop -/

/-- Where no marker occurs, all but the kept prefix may be dropped (41_live_sync.md R147, 90_conflicts.md C1). -/
theorem Hunts.trim (h : Hunts c g B out s) :
    Hunts c (g + (B.length - keep (marker c) B)) ((marker c).take (keep (marker c) B)) out s := by
  have hm := marker_ne_nil c
  have hlt := keep_lt hm B
  have hkeep := keep_take_keep hm B
  have hlen : ((marker c).take (keep (marker c) B)).length = keep (marker c) B := List.length_take_of_le hlt.le
  refine ⟨h.ctrl, h.inv, h.phase, firstMarker_short hm (by rwa [hlen]), h.held.trans hkeep.symm, ?_, h.output⟩
  rw [h.gap, hkeep, hlen, Nat.sub_self, Nat.add_zero]

/-- Where the marker occurs, what comes before it may be dropped (R147, log 12). -/
theorem Collects.trim (h : Collects c g k B out s) : Collects c (g + k) 0 (B.drop k) out s := by
  have hm := marker_ne_nil c
  obtain ⟨hle, hat, -⟩ := (firstMarker_eq_some hm).1 h.atMarker
  have hmark : firstMarker (marker c) (B.drop k) = some 0 :=
    (firstMarker_eq_some hm).2 ⟨by rw [List.length_drop]; omega, hat, by simp⟩
  refine ⟨h.ctrl, h.inv, h.phase, hmark, ?_, h.output⟩
  rw [h.payload, List.drop_drop, Nat.zero_add]

/-- Where the buffer holds no whole frame, the document's loop emits none, and what it leaves stands for as much. -/
theorem Buffered.docDrain_rest (h : Buffered c g B out s) (fuel : Nat) :
    (docDrain c (fuel + 1) B).1 = [] ∧ ∃ g', Buffered c g' (docDrain c (fuel + 1) B).2 out s := by
  rw [docDrain]
  by_cases hshort : B.length < markerWidth c
  · rw [if_pos hshort]
    exact ⟨rfl, g, h⟩
  · rw [if_neg hshort]
    rcases h with h | ⟨k, h⟩
    · simp only [h.noMarker, drop_keep, true_and]
      exact ⟨_, .inl h.trim⟩
    · have hlt : (B.drop (k + markerWidth c)).length < frameSize c := by
        have hf := h.inv.fcntBelow
        rw [h.ctrl] at hf
        rw [← h.payload, Memory.span_length]
        exact hf
      simp only [h.atMarker, if_pos hlt, true_and]
      exact ⟨_, .inr ⟨0, h.trim⟩⟩

/-- The frames the buffer takes are the first ones of the document's loop. -/
theorem Takes.docDrain_eq (h : Takes c g S es g' B) : ∀ {fuel : Nat}, S.length < fuel →
    ∃ fuel', docDrain c fuel S =
      (es.filterMap Event.record? ++ (docDrain c (fuel' + 1) B).1, (docDrain c (fuel' + 1) B).2) := by
  induction h with
  | rest g S => exact fun {fuel} hf => ⟨fuel - 1, by rw [Nat.sub_add_cancel (by omega)]; rfl⟩
  | @frame g k g' S B es hk hlen _ ih =>
    rintro (_ | fuel) hf
    · omega
    · have hle := ((firstMarker_eq_some (marker_ne_nil c)).1 hk).1
      have hW := markerWidth_cases c
      rw [marker_length] at hle
      obtain ⟨fuel', he⟩ := ih (fuel := fuel) (by simp; omega)
      refine ⟨fuel', ?_⟩
      rw [docDrain, if_neg (by omega), hk, List.filterMap_append, filterMap_record_gapReport]
      simp only [if_neg (not_lt.2 hlen), he]
      rfl

/-- A run over chunks: the records of the block's frames are those of the document's loop. -/
theorem run_chunks (ho : isOffline c = false) (chunks : List (List Byte)) :
    ∀ {g : Nat} {B : List Byte} {out : List Event} {s : State}, Buffered c g B out s →
      s.input = chunks.flatMap feedInput → ∃ t, Sys2Proof.core.run chunks.flatten.length s = .next t ∧
        t.output.filterMap Event.record? = out.filterMap Event.record? ++ docFrames c B chunks := by
  induction chunks with
  | nil => exact fun {g B out s} h _ => ⟨s, rfl, by rw [h.records, docFrames, List.append_nil]⟩
  | cons chunk l ih =>
    intro g B out s h hi
    obtain ⟨u, es, g₁, B₁, hu, hrest, htakes, hb⟩ := run_feeds ho _ chunk h hi
    obtain ⟨fuel, hdoc⟩ := htakes.docDrain_eq (Nat.lt_succ_self _)
    obtain ⟨hnone, g₂, hb₂⟩ := hb.docDrain_rest fuel
    obtain ⟨t, ht, hrec⟩ := ih hb₂ hrest
    refine ⟨t, ?_, ?_⟩
    · rw [List.flatten_cons, List.length_append, run_add hu, ht]
    · rw [hrec, docFrames, hdoc, hnone, List.filterMap_append, List.append_nil, List.append_assoc]

/-- Settles O50: a fresh state stands for the empty buffer. -/
theorem liveFramesAreThoseOfTheDocumentLoop : Obligations.LiveFramesAreThoseOfTheDocumentLoop :=
  fun c chunks ho => run_chunks ho chunks (buffered_reset c (chunks.flatMap feedInput) []) rfl

end Sys2Proof.Machine
end

section
/-! SUPPORT. FEED and EOS in offline mode, phase by phase, as equations of the whole state (42_offline_splitter.md R176
to R180): the pending bytes of a session are stored in a row, with at most one frame completed. -/

namespace Sys2Proof.Machine

variable {s : State}

/-! ### FEED of `A5` (R176) -/

theorem exec_feed_a5 (ho : isOffline s.ctrl = true) (hp : s.phase ≠ .closed) :
    exec (.feed 0xA5#8) s = .next (feedOfflineA5 s.fed) := by
  rw [exec_feed_open _ hp, feedUnit_a5 (s := s.fed) ho, finish_ok]

/-- The fourth pending `A5` byte completes a session marker. -/
theorem feedOfflineA5_complete (h : s.j.toNat + 1 = 4) : feedOfflineA5 s = startSession { s with j := 0#2 } := by
  rw [feedOfflineA5, if_pos (by simpa using h)]

/-- Settles O22: the byte is one more pending, or the fourth, and a running session is closed first. -/
theorem offlineMarkerByte : Obligations.OfflineMarkerByte := by
  have complete : ∀ s : State, s.j = 3#2 → s.fed.j.toNat + 1 = 4 := fun s hj => by simp [hj]
  refine ⟨fun s ho hp hj => ?_, fun s ho hp hj => ?_, fun s ho hp hj => ?_⟩ <;>
    rw [exec_feed_a5 ho (by simp [hp])]
  · have hne : s.j.toNat + 1 ≠ 4 := fun h => hj (BitVec.eq_of_toNat_eq (Nat.succ.inj h))
    rw [feedOfflineA5_pending (s := s.fed) hne, BitVec.ofNat_add, BitVec.ofNat_toNat, BitVec.setWidth_eq]
    rfl
  · rw [feedOfflineA5_complete (complete s hj), startSession_preamble (by simp [hp])]
  · rw [feedOfflineA5_complete (complete s hj), startSession_session (by exact hp)]
    simp [hp]

/-! ### The bytes one token commits in a session (R178) -/

/-- What `FB` reads at an address after bytes, fewer than a frame has, are stored from `FCNT` on, and those left over
when a frame is complete from address 0 on. -/
def storedByte (s : State) (bs : List Byte) (a : Nat) : Byte :=
  if s.fcnt.toNat ≤ a ∧ a < s.fcnt.toNat + bs.length ∧ a < frameSize s.ctrl then bs.getD (a - s.fcnt.toNat) 0#8
  else if a + frameSize s.ctrl < s.fcnt.toNat + bs.length then bs.getD (a + frameSize s.ctrl - s.fcnt.toNat) 0#8
  else s.fb.read a

theorem read_writeAll_eq_storedByte {bs : List Byte} (hm : s.fb.wf = true)
    (hlt : s.fcnt.toNat + bs.length < frameSize s.ctrl) (a : Nat) :
    (s.fb.writeAll s.fcnt.toNat bs).read a = storedByte s bs a := by
  have hle := frameSize_le s.ctrl
  rw [Memory.read_writeAll a hm (by omega), storedByte]
  by_cases ha : s.fcnt.toNat ≤ a ∧ a < s.fcnt.toNat + bs.length
  · rw [if_pos ha, if_pos (by omega)]
  · rw [if_neg ha, if_neg (by omega), if_neg (by omega)]

/-- The address is in the frame's end, in the bytes left over, or in neither. -/
theorem read_writeAll_wrap_eq_storedByte {bs : List Byte} {k : Nat} (hm : s.fb.wf = true)
    (hk : s.fcnt.toNat + k = frameSize s.ctrl) (hkl : k ≤ bs.length) (hl : bs.length < frameSize s.ctrl) (a : Nat) :
    ((s.fb.writeAll s.fcnt.toNat (bs.take k)).writeAll 0 (bs.drop k)).read a = storedByte s bs a := by
  have hle := frameSize_le s.ctrl
  have hlen : (bs.take k).length = k := List.length_take_of_le hkl
  rw [Memory.read_writeAll a (Memory.writeAll_wf hm (by omega)) (by simp; omega),
    Memory.read_writeAll a hm (by omega), storedByte, hlen, List.length_drop]
  by_cases hend : s.fcnt.toNat ≤ a ∧ a < s.fcnt.toNat + k
  · rw [if_neg (by omega), if_pos hend, if_pos (by omega), List.getD_eq_getElem?_getD, List.getElem?_take,
      if_pos (by omega), List.getD_eq_getElem?_getD]
  · by_cases hrest : a + frameSize s.ctrl < s.fcnt.toNat + bs.length
    · rw [if_pos (by omega), if_neg (by omega), if_pos hrest, List.getD_eq_getElem?_getD, List.getElem?_drop,
        List.getD_eq_getElem?_getD]
      congr 2
      omega
    · rw [if_neg (by omega), if_neg hend, if_neg (by omega), if_neg hrest]

/-- COMMIT of fewer bytes than a frame has: they are stored, and complete a frame or do not. -/
theorem commitAll_session {bs : List Byte} (hp : s.phase = .collect) (hm : s.fb.wf = true)
    (hf : s.fcnt.toNat < frameSize s.ctrl) (hl : bs.length < frameSize s.ctrl) :
    ∃ fb, commitAll bs s = .ok (
        if s.fcnt.toNat + bs.length < frameSize s.ctrl then
          { s with fb := fb, fcnt := BitVec.ofNat 10 (s.fcnt.toNat + bs.length) }
        else
          { s with
            fb := fb, fcnt := BitVec.ofNat 10 (s.fcnt.toNat + bs.length - frameSize s.ctrl)
            frames := s.frames + 1, sframes := s.sframes + 1
            output := s.output ++ [.frame (s.sessions - 1) (decodeSpan s.ctrl
              ((s.fb.span 0 s.fcnt.toNat ++ bs).take (frameSize s.ctrl)))] }) ∧
      ∀ a, fb.read a = storedByte s bs a := by
  have hh : s.phase ≠ .hunt := by simp [hp]
  by_cases hlt : s.fcnt.toNat + bs.length < frameSize s.ctrl
  · refine ⟨_, ?_, read_writeAll_eq_storedByte hm hlt⟩
    rw [commitAll_store hh hm hlt, if_pos hlt, BitVec.ofNat_add, BitVec.ofNat_toNat, BitVec.setWidth_eq]
  · obtain ⟨k, hk⟩ : ∃ k, frameSize s.ctrl = s.fcnt.toNat + k := Nat.exists_eq_add_of_le hf.le
    have hspan : (s.fb.span 0 s.fcnt.toNat ++ bs).take (frameSize s.ctrl) = s.fb.span 0 s.fcnt.toNat ++ bs.take k := by
      rw [hk, List.take_append, Memory.span_length, Nat.add_sub_cancel_left, List.take_of_length_le (by simp)]
    have hwrap := commitAll_wrap hh hm hf hl (not_lt.1 hlt)
    simp only [show frameSize s.ctrl - s.fcnt.toNat = k by omega] at hwrap
    refine ⟨_, ?_, read_writeAll_wrap_eq_storedByte hm hk.symm (by omega) hl⟩
    rw [if_neg hlt, hspan, hwrap]

/-! ### FEED of any other byte (R177) -/

theorem exec_feed_other {b : Byte} (ho : isOffline s.ctrl = true) (hp : s.phase ≠ .closed) (hb : b ≠ 0xA5#8) :
    exec (.feed b) s = finish (commitAll (List.replicate s.j.toNat 0xA5#8 ++ [b]) { s.fed with j := 0#2 }) := by
  rw [exec_feed_open b hp, feedUnit_other (s := s.fed) ho hb, feedOfflineOther, sessionByte_eq]

/-- Settles O23: the pending bytes and the byte are at most 4, fewer than a frame has. -/
theorem offlineOtherByte : Obligations.OfflineOtherByte := by
  refine ⟨fun b s ho hp hb => ?_, fun b s ho hp hb hm hf => ?_⟩ <;> rw [exec_feed_other ho (by simp [hp]) hb]
  · rw [commitAll_preamble _ (by exact hp), finish_ok]
    simp [BitVec.ofNat_add]
  · have hj := s.j.isLt
    have h12 := frameSize_ge s.ctrl
    have hle := frameSize_le s.ctrl
    have hlen : (List.replicate s.j.toNat 0xA5#8 ++ [b]).length = s.j.toNat + 1 := by simp
    obtain ⟨fb, hc, hread⟩ := commitAll_session (s := { s.fed with j := 0#2 }) hp hm hf (by rw [hlen]; simp only; omega)
    refine ⟨fb, ?_, fun a => ?_⟩
    · have hfcnt : s.fcnt + (s.j.setWidth 10 + 1) = BitVec.ofNat 10 (s.fcnt.toNat + (s.j.toNat + 1)) := by
        simp [BitVec.ofNat_add]
      rw [hc, finish_ok, hfcnt, hlen, Nat.add_assoc]
      split
      · rfl
      · next hge => rw [BitVec.ofNat_sub_ofNat_of_le _ _ (hle.trans_lt (by decide)) (not_lt.1 hge)]
    · rw [hread, storedByte, hlen]

/-! ### EOS (R180) -/

theorem exec_eos_offline (ho : isOffline s.ctrl = true) (hp : s.phase ≠ .closed) :
    exec .eos s = finish ((commitAll (List.replicate s.j.toNat 0xA5#8) { s.ended with j := 0#2 }).map endCapture) := by
  rw [exec_eos_open hp, eosUnit_offline (s := s.ended) ho, eosOffline, sessionByte_eq]

/-- `FCNT` below a frame's size, as a count of tail bytes (10_state.md R29). -/
theorem tail_of_lt {n : Nat} (h : n < 522) :
    (BitVec.ofNat 10 n).setWidth 32 = BitVec.ofNat 32 n ∧ (BitVec.ofNat 10 n = 0#10 ↔ n = 0) := by
  refine ⟨BitVec.setWidth_ofNat_of_le_of_lt (by decide) (h.trans (by decide)), ?_⟩
  rw [← BitVec.toNat_inj, BitVec.toNat_ofNat, Nat.mod_eq_of_lt (h.trans (by decide))]
  rfl

/-- Settles O24: the pending bytes are at most 3, and the session that ends has the tail they leave. -/
theorem offlineEosCloses : Obligations.OfflineEosCloses := by
  refine ⟨fun s ho hp => ?_, fun s ho hp hm hf => ?_⟩ <;> rw [exec_eos_offline ho (by simp [hp])]
  · rw [commitAll_preamble _ (by exact hp), Except.map, finish_ok,
      ((endCapture_cases _).resolve_left fun h => by simp [hp] at h).2]
    simp
  · have hj := s.j.isLt
    have h12 := frameSize_ge s.ctrl
    have hle := frameSize_le s.ctrl
    obtain ⟨fb, hc, hread⟩ := commitAll_session (bs := List.replicate s.j.toNat 0xA5#8)
      (s := { s.ended with j := 0#2 }) hp hm hf (by simp; omega)
    refine ⟨fb, ?_, fun a => ?_⟩
    · rw [hc, List.length_replicate]
      simp only
      split <;> rw [Except.map, finish_ok, ((endCapture_cases _).resolve_right fun h => h.1 (by exact hp)).2]
      · next hlt =>
        obtain ⟨hwidth, hzero⟩ := tail_of_lt (hlt.trans_le hle)
        simp only [hwidth, hzero]
      · obtain ⟨hwidth, hzero⟩ := tail_of_lt (n := s.fcnt.toNat + s.j.toNat - frameSize s.ctrl) (by omega)
        have hfull : s.fcnt.toNat + s.j.toNat - frameSize s.ctrl = 0 ↔ s.fcnt.toNat + s.j.toNat = frameSize s.ctrl := by
          omega
        simp only [hwidth, hzero, hfull, List.append_assoc, List.cons_append, List.nil_append]
    · have hA5 : ∀ i, i < s.j.toNat → (List.replicate s.j.toNat 0xA5#8).getD i 0#8 = 0xA5#8 := fun i hi =>
        List.getD_replicate _ hi
      rw [hread, storedByte, List.length_replicate]
      simp only
      split
      · next h => rw [hA5 _ (by omega), if_pos (.inl h)]
      · split
        · next h => rw [hA5 _ (by omega), if_pos (.inr h)]
        · next h h' => rw [if_neg (not_or.2 ⟨h, h'⟩)]

end Sys2Proof.Machine
end

section
/-! SUPPORT. What each mode of `CTRL.MODE` leaves to the other (42_offline_splitter.md R183, 10_state.md R29, R36, R38,
R39). -/

namespace Sys2Proof.Machine

variable {off : Bool} {s t u : State}

/-- Whether a block whose mode is `off` can emit the event: a RESYNC is live, the reports on sessions are offline. -/
def Event.inMode (off : Bool) : Event → Bool
  | .resync _ => !off
  | .sessionStart _ _ => off
  | .sessionEnd _ _ _ => off
  | .noMarker => off
  | .frame _ _ => true
  | .closed _ => true
  | .readData _ _ => true
  | .error _ _ => true

/-- Between two states of a block whose mode is `off` the counters of the other mode stay, and its events are not
emitted. -/
structure StaysInMode (off : Bool) (s t : State) : Prop where
  emits : AppendsOnly (fun e => e.inMode off = true) s t
  offline : off = true → t.resyncs = s.resyncs ∧ t.lastGap = s.lastGap
  live : off = false → t.sframes = s.sframes ∧ t.sessions = s.sessions ∧ t.nomarker = s.nomarker

theorem StaysInMode.refl (s : State) : StaysInMode off s s := ⟨appendsOnly_of_eq rfl, by simp, by simp⟩

theorem StaysInMode.trans (h : StaysInMode off s t) (h' : StaysInMode off t u) : StaysInMode off s u where
  emits := h.emits.trans h'.emits
  offline ho := ⟨(h'.offline ho).1.trans (h.offline ho).1, (h'.offline ho).2.trans (h.offline ho).2⟩
  live ho := by
    obtain ⟨hf, hs, hn⟩ := h.live ho
    obtain ⟨hf', hs', hn'⟩ := h'.live ho
    exact ⟨hf'.trans hf, hs'.trans hs, hn'.trans hn⟩

theorem feedLiveHunt_staysInMode (b : Byte) (s : State) : StaysInMode false s (feedLiveHunt b s) := by
  rcases feedLiveHunt_cases b s with ⟨-, he⟩ | ⟨-, he⟩ | ⟨d, k, he⟩ <;> rw [he]
  · exact ⟨appendsOnly_of_eq rfl, by simp, by simp⟩
  · exact ⟨appendsOnly_of_one rfl rfl, by simp, by simp⟩
  · exact ⟨appendsOnly_of_eq rfl, by simp, by simp⟩

theorem feedLiveCollect_staysInMode {b : Byte} (h : feedLiveCollect b s = .ok t) : StaysInMode false s t := by
  rcases feedLiveCollect_cases h with rfl | ⟨r, rfl⟩
  · exact ⟨appendsOnly_of_eq rfl, by simp, by simp⟩
  · exact ⟨appendsOnly_of_one rfl rfl, by simp, by simp⟩

theorem eosLive_staysInMode (s : State) : StaysInMode false s (eosLive s) :=
  ⟨appendsOnly_of_one rfl rfl, by simp, fun _ => ⟨rfl, rfl, rfl⟩⟩

theorem commit_staysInMode {x : Byte} (h : commit x s = .ok t) : StaysInMode true s t := by
  rcases commit_cases h with ⟨-, rfl⟩ | ⟨-, rfl⟩ | ⟨-, r, rfl⟩
  · exact ⟨appendsOnly_of_eq rfl, by simp, by simp⟩
  · exact ⟨appendsOnly_of_eq rfl, by simp, by simp⟩
  · exact ⟨appendsOnly_of_one rfl rfl, by simp, by simp⟩

/-- The pending bytes and the next ones are committed (42_offline_splitter.md R177, R180). -/
theorem commitPending_staysInMode {bs : List Byte} (h : commitAll bs { s with j := 0#2 } = .ok t) :
    StaysInMode true s t :=
  .trans (t := { s with j := 0#2 }) ⟨appendsOnly_of_eq rfl, by simp, by simp⟩
    (commitAll_induction .refl .trans commit_staysInMode h)

theorem feedOfflineA5_staysInMode (s : State) : StaysInMode true s (feedOfflineA5 s) := by
  rcases feedOfflineA5_cases s with ⟨k, he⟩ | ⟨-, he⟩ | ⟨-, he⟩ <;> rw [he]
  · exact ⟨appendsOnly_of_eq rfl, by simp, by simp⟩
  · exact ⟨appendsOnly_of_one rfl rfl, by simp, by simp⟩
  · exact ⟨appendsOnly_of_two rfl rfl rfl, by simp, by simp⟩

theorem endCapture_staysInMode (s : State) : StaysInMode true s (endCapture s) := by
  rcases endCapture_cases s with ⟨-, he⟩ | ⟨-, he⟩ <;> rw [he]
  · exact ⟨appendsOnly_of_two rfl rfl rfl, by simp, by simp⟩
  · exact ⟨appendsOnly_of_two rfl rfl rfl, by simp, by simp⟩

theorem feedUnit_staysInMode {b : Byte} (h : feedUnit b s = .ok t) : StaysInMode (isOffline s.ctrl) s t := by
  rcases feedUnit_cases h with ⟨ho, -, rfl⟩ | ⟨ho, -, hc⟩ | ⟨ho, -, rfl⟩ | ⟨ho, -, hc⟩ <;> rw [ho]
  · exact feedLiveHunt_staysInMode b s
  · exact feedLiveCollect_staysInMode hc
  · exact feedOfflineA5_staysInMode s
  · exact commitPending_staysInMode hc

theorem eosUnit_staysInMode (h : eosUnit s = .ok t) : StaysInMode (isOffline s.ctrl) s t := by
  rcases eosUnit_cases h with ⟨ho, rfl⟩ | ⟨ho, u, hc, rfl⟩ <;> rw [ho]
  · exact eosLive_staysInMode s
  · exact (commitPending_staysInMode hc).trans (endCapture_staysInMode u)

theorem raiseError_staysInMode (e : ErrorKind) (w : Token) (s : State) : StaysInMode off s (raiseError e w s) :=
  ⟨appendsOnly_of_one (raiseError_output e w s) rfl, by simp, by simp⟩

theorem exec_staysInMode {i : Instr} (h : exec i s = .next t) (hi : i ≠ .restart) :
    StaysInMode (isOffline s.ctrl) s t := by
  rcases exec_cases h with ⟨-, rfl⟩ | ⟨a, -, rfl⟩ | ⟨rfl, -⟩ | ⟨v, -, -, rfl⟩ | ⟨v, -, -, rfl⟩ | ⟨-, -, rfl⟩ |
    ⟨b, -, -, hu⟩ | ⟨-, -, hu⟩
  · exact .refl t
  · exact ⟨appendsOnly_of_one rfl rfl, by simp, by simp⟩
  · exact absurd rfl hi
  · exact ⟨appendsOnly_of_eq rfl, by simp, by simp⟩
  · exact raiseError_staysInMode _ _ s
  · exact raiseError_staysInMode _ _ s
  · exact .trans (t := s.fed) ⟨appendsOnly_of_eq rfl, by simp, by simp⟩ (feedUnit_staysInMode hu)
  · exact .trans (t := s.ended) ⟨appendsOnly_of_eq rfl, by simp, by simp⟩ (eosUnit_staysInMode hu)

theorem step_staysInMode (h : step s = .next t) (hr : s.restarts = false) : StaysInMode (isOffline s.ctrl) s t := by
  rcases step_cases_of_not_restarts h hr with ⟨-, rfl⟩ | ⟨w, rest, -, ⟨-, rfl⟩ | ⟨i, hi, -, he⟩⟩
  · exact .refl t
  · exact .trans (t := { s with input := rest }) ⟨appendsOnly_of_eq rfl, by simp, by simp⟩
      (raiseError_staysInMode .illegalToken w _)
  · exact .trans (t := { s with input := rest }) ⟨appendsOnly_of_eq rfl, by simp, by simp⟩ (exec_staysInMode he hi)

/-- Settles O44: the unit that takes a byte, or the end of stream, is that of the mode. -/
theorem modesDoNotMix : Obligations.ModesDoNotMix := by
  intro s t h hr
  obtain ⟨⟨es, hout, hmode⟩, hoff, hlive⟩ := step_staysInMode h hr
  have hno : ∀ e, e.inMode (isOffline s.ctrl) = false → e ∉ es := fun e he hm => by
    rw [hmode e hm] at he
    cases he
  refine ⟨es, hout, fun ho => ?_, fun ho => ?_⟩
  · obtain ⟨hresyncs, hlast⟩ := hoff ho
    exact ⟨hresyncs, hlast, fun g => hno _ (by rw [ho]; rfl)⟩
  · obtain ⟨hframes, hsessions, hmarker⟩ := hlive ho
    exact ⟨hframes, hsessions, hmarker, hno _ (by rw [ho]; rfl),
      fun n x y => ⟨hno _ (by rw [ho]; rfl), hno _ (by rw [ho]; rfl)⟩⟩

end Sys2Proof.Machine
end

section
/-! SUPPORT. The batch definition of a capture from its front (42_offline_splitter.md R171 to R175): the region before
the first session marker, and the sessions after it. -/

namespace Sys2Proof.Machine

variable {c : Ctrl} {C X T : List Byte} {k : Nat}

/-! ### The scan for session markers (R171) -/

theorem sessionMarker_ne_nil : Config.sessionMarker ≠ [] := by decide

theorem offsetsFrom_marker {i : Nat} (fuel : Nat) (hle : i + 4 ≤ C.length) (h : slice C i 4 = Config.sessionMarker) :
    offsetsFrom C (fuel + 1) i = i :: offsetsFrom C fuel (i + 4) := by
  rw [offsetsFrom, sessionWidth_eq, if_pos hle, if_pos h]

/-- A scan sees the bytes from its index on only, and with enough fuel for them it is the same for any fuel. -/
theorem offsetsFrom_drop {a : Nat} : ∀ {fuel fuel' i : Nat}, C.length < fuel + (i + a) → C.length < fuel' + (i + a) →
    offsetsFrom C fuel (i + a) = (offsetsFrom (C.drop a) fuel' i).map (· + a) := by
  intro fuel
  induction fuel with
  | zero =>
    intro fuel' i h _
    rw [offsetsFrom, offsetsFrom_end _ (by rw [List.length_drop]; omega), List.map_nil]
  | succ fuel ih =>
    intro fuel' i h h'
    by_cases hend : C.length < i + a + 4
    · rw [offsetsFrom_end _ hend, offsetsFrom_end _ (by rw [List.length_drop]; omega), List.map_nil]
    · cases fuel' with
      | zero => omega
      | succ fuel' =>
        have hle : i + 4 ≤ (C.drop a).length := by rw [List.length_drop]; omega
        have hslice : slice (C.drop a) i 4 = slice C (i + a) 4 := by rw [slice, slice, List.drop_drop, Nat.add_comm]
        by_cases hm : slice C (i + a) 4 = Config.sessionMarker
        · rw [offsetsFrom_marker fuel (by omega) hm, offsetsFrom_marker fuel' hle (hslice.trans hm), List.map_cons,
            ← ih (i := i + 4) (by omega) (by omega), Nat.add_right_comm]
        · rw [offsetsFrom, offsetsFrom, sessionWidth_eq, if_pos (by omega), if_neg hm, if_pos hle,
            if_neg (by rwa [hslice]), ← ih (by omega) (by omega), Nat.add_right_comm]

theorem sessionOffsets_of_none (h : firstMarker Config.sessionMarker C = none) : sessionOffsets C = [] := by
  have hno := (firstMarker_eq_none sessionMarker_ne_nil).1 h
  rw [sessionOffsets, offsetsFrom_skip (C.length - 3) (by omega) fun k hk => ⟨by omega, hno (0 + k)⟩,
    offsetsFrom_end _ (by omega)]

theorem sessionOffsets_of_some (h : firstMarker Config.sessionMarker C = some k) :
    sessionOffsets C = k :: (sessionOffsets (C.drop (k + 4))).map (· + (k + 4)) := by
  obtain ⟨hle, hat, hno⟩ := (firstMarker_eq_some sessionMarker_ne_nil).1 h
  have hle : k + 4 ≤ C.length := hle
  have hrest := offsetsFrom_drop (C := C) (a := k + 4) (i := 0) (fuel := C.length - k)
    (fuel' := (C.drop (k + 4)).length + 1) (by omega) (by rw [List.length_drop]; omega)
  rw [Nat.zero_add] at hrest
  rw [sessionOffsets, offsetsFrom_skip k (by omega) fun i hi => ⟨by omega, hno (0 + i) (by omega)⟩, Nat.zero_add,
    show C.length + 1 - k = C.length - k + 1 by omega, offsetsFrom_marker _ hle hat, hrest, sessionOffsets]

/-! ### Regions (R172) -/

/-- The bytes before the first session marker. -/
def regionHead (C : List Byte) : List Byte := C.take ((sessionOffsets C).headD C.length)

/-- The regions of all sessions of a capture. -/
def sessionRegions (C : List Byte) : List (List Byte) := regionsOf C (sessionOffsets C)

theorem regionsOf_drop (a : Nat) (os : List Nat) : regionsOf C (os.map (· + a)) = regionsOf (C.drop a) os := by
  induction os with
  | nil => rfl
  | cons o os ih =>
    have hdrop : C.drop (o + a + 4) = (C.drop a).drop (o + 4) := by rw [List.drop_drop]; congr 1; omega
    cases os with
    | nil => simp only [List.map_cons, List.map_nil, regionsOf, sessionWidth_eq, hdrop]
    | cons o' os =>
      simp only [List.map_cons] at ih ⊢
      have hlen : o' + a - (o + a + 4) = o' - (o + 4) := by omega
      simp only [regionsOf, sessionWidth_eq, slice, ih, hdrop, hlen]

theorem sessionRegions_of_none (h : firstMarker Config.sessionMarker C = none) : sessionRegions C = [] := by
  rw [sessionRegions, sessionOffsets_of_none h, regionsOf]

theorem regionHead_of_none (h : firstMarker Config.sessionMarker C = none) : regionHead C = C := by
  rw [regionHead, sessionOffsets_of_none h, List.headD_nil, List.take_length]

theorem regionHead_of_some (h : firstMarker Config.sessionMarker C = some k) : regionHead C = C.take k := by
  rw [regionHead, sessionOffsets_of_some h, List.headD_cons]

/-- The first session's region ends at the next marker, and the other sessions are those of the bytes after the first
marker. -/
theorem sessionRegions_of_some (h : firstMarker Config.sessionMarker C = some k) :
    sessionRegions C = regionHead (C.drop (k + 4)) :: sessionRegions (C.drop (k + 4)) := by
  rw [sessionRegions, sessionOffsets_of_some h, sessionRegions, ← regionsOf_drop, regionHead]
  cases sessionOffsets (C.drop (k + 4)) with
  | nil => simp [regionsOf]
  | cons o os => simp [regionsOf, slice]

/-! ### Events (R174, R175) -/

theorem captureEvents_of_none (h : firstMarker Config.sessionMarker C = none) :
    captureEvents c C = [.noMarker, .closed (BitVec.ofNat 32 C.length)] := by
  simp [captureEvents, sessionOffsets_of_none h, regionsOf, sessionsEvents]

theorem captureEvents_of_some (h : firstMarker Config.sessionMarker C = some k) :
    captureEvents c C = sessionsEvents c 0 k (regionHead (C.drop (k + 4)) :: sessionRegions (C.drop (k + 4))) ++
      [.closed 0#32] := by
  rw [← sessionRegions_of_some h, sessionRegions]
  simp [captureEvents, sessionOffsets_of_some h]

/-! ### Bytes in which no session marker begins -/

/-- No session marker begins in the bytes, whatever follows them. -/
def NoMarkerStarts (X : List Byte) : Prop :=
  ∀ T, firstMarker Config.sessionMarker (X ++ T) = (firstMarker Config.sessionMarker T).map (· + X.length)

theorem noMarkerStarts_nil : NoMarkerStarts [] := by simp [NoMarkerStarts]

theorem NoMarkerStarts.append {Y : List Byte} (h : NoMarkerStarts X) (h' : NoMarkerStarts Y) :
    NoMarkerStarts (X ++ Y) := by
  intro T
  rw [List.append_assoc, h, h', Option.map_map, List.length_append]
  congr 1
  funext n
  simp only [Function.comp]
  omega

/-- Fewer `A5` bytes than a marker has are data once another byte follows them (R177). -/
theorem noMarkerStarts_pending {n : Nat} {b : Byte} (hn : n < 4) (hb : b ≠ 0xA5#8) :
    NoMarkerStarts (List.replicate n 0xA5#8 ++ [b]) := by
  intro T
  have hm : Config.sessionMarker = [0xA5#8, 0xA5#8, 0xA5#8, 0xA5#8] := rfl
  interval_cases n <;> simp [List.replicate, firstMarker, hm, hb]

/-- Fewer `A5` bytes than a marker has are none (R180). -/
theorem NoMarkerStarts.firstMarker_pending {n : Nat} (h : NoMarkerStarts X) (hn : n < 4) :
    firstMarker Config.sessionMarker (X ++ List.replicate n 0xA5#8) = none := by
  rw [h, firstMarker_short sessionMarker_ne_nil (by rwa [List.length_replicate]), Option.map_none]

/-- Four of them are the marker (R176). -/
theorem NoMarkerStarts.firstMarker_marker (h : NoMarkerStarts X) (T : List Byte) :
    firstMarker Config.sessionMarker (X ++ (Config.sessionMarker ++ T)) = some X.length := by
  have hm : firstMarker Config.sessionMarker Config.sessionMarker = some 0 := by decide
  rw [h, firstMarker_append sessionMarker_ne_nil hm, Option.map_some, Nat.zero_add]

end Sys2Proof.Machine
end

section
/-! SUPPORT. The byte-serial detector refines the batch definition (42_offline_splitter.md R181): where the block stands
in the capture, kept by every FEED, and the events still to come. -/

namespace Sys2Proof.Machine

variable {c : Ctrl} {n skipped : Nat} {X : List Byte} {out : List Event} {s : State}

/-- The frames of a region's first bytes, as many as whole frames have, are the first ones (R173). -/
theorem regionFrames_append {Y : List Byte} : ∀ {q : Nat} {F : List Byte}, F.length = q * frameSize c →
    regionFrames c (F ++ Y) = regionFrames c F ++ regionFrames c Y := by
  have h12 := frameSize_ge c
  intro q
  induction q with
  | zero =>
    intro F h
    rw [Nat.zero_mul, List.length_eq_zero_iff] at h
    rw [h, regionFrames_short (X := []) (by simp; omega), List.nil_append, List.nil_append]
  | succ q ih =>
    intro F h
    rw [Nat.succ_mul] at h
    rw [regionFrames_cons (X := F) (by omega), regionFrames_cons (X := F ++ Y) (by simp; omega),
      List.take_append_of_le_length (by omega), List.drop_append_of_le_length (by omega),
      ih (by rw [List.length_drop]; omega), List.cons_append]

/-! ### Where the block stands -/

/-- The block is in PREAMBLE: the bytes `X` are discarded, and counted in `GAP`. -/
structure InPreamble (c : Ctrl) (X : List Byte) (out : List Event) (s : State) : Prop where
  ctrl : s.ctrl = c
  phase : s.phase = .hunt
  wf : s.fb.wf = true
  gap : s.gap = BitVec.ofNat 32 X.length
  sessions : s.sessions = 0#32
  output : s.output = out

/-- The block is in session `n`: of the bytes `X` of its region those of `q` whole frames are reported, since `out`,
and `FB` holds the others. -/
structure InSession (c : Ctrl) (n skipped : Nat) (X : List Byte) (out : List Event) (s : State) : Prop where
  ctrl : s.ctrl = c
  phase : s.phase = .collect
  wf : s.fb.wf = true
  gap : s.gap = 0#32
  sessions : s.sessions = BitVec.ofNat 32 (n + 1)
  below : s.fcnt.toNat < frameSize c
  frames : ∃ F q, X = F ++ s.fb.span 0 s.fcnt.toNat ∧ F.length = q * frameSize c ∧ s.sframes = BitVec.ofNat 32 q ∧
    s.output = out ++ .sessionStart (BitVec.ofNat 32 n) (BitVec.ofNat 32 skipped) ::
      (regionFrames c F).map (.frame (BitVec.ofNat 32 n))

theorem InSession.last_index (h : InSession c n skipped X out s) : s.sessions - 1 = BitVec.ofNat 32 n := by
  rw [h.sessions, BitVec.ofNat_add]
  exact BitVec.add_sub_cancel _ _

/-- A session that has just begun. -/
theorem inSession_nil (hc : s.ctrl = c) (hp : s.phase = .collect) (hm : s.fb.wf = true) (hg : s.gap = 0#32)
    (hs : s.sessions = BitVec.ofNat 32 (n + 1)) (hf : s.fcnt = 0#10) (hq : s.sframes = 0#32)
    (ho : s.output = out ++ [.sessionStart (BitVec.ofNat 32 n) (BitVec.ofNat 32 skipped)]) :
    InSession c n skipped [] out s := by
  have h12 := frameSize_ge c
  have hnone : regionFrames c [] = [] := regionFrames_short (by simp; omega)
  exact ⟨hc, hp, hm, hg, hs, by simp [hf]; omega, [], 0, by simp [hf], by simp, hq, by rw [ho, hnone]; rfl⟩

/-- The session's report when it ends is that of the batch definition (R175, R179). -/
theorem InSession.report (h : InSession c n skipped X out s) :
    s.output ++ [.sessionEnd (s.sessions - 1) s.sframes (s.fcnt.setWidth 32)] =
      out ++ sessionEvents c n skipped X := by
  obtain ⟨F, q, rfl, hF, hq, hout⟩ := h.frames
  have hf := h.below
  have hlen : (F ++ s.fb.span 0 s.fcnt.toNat).length = s.fcnt.toNat + q * frameSize c := by
    rw [List.length_append, hF, Memory.span_length, Nat.add_comm]
  have hdiv : (F ++ s.fb.span 0 s.fcnt.toNat).length / frameSize c = q := by
    rw [hlen, Nat.add_mul_div_right _ _ (by omega), Nat.div_eq_of_lt hf, Nat.zero_add]
  have hmod : (F ++ s.fb.span 0 s.fcnt.toNat).length % frameSize c = s.fcnt.toNat := by
    rw [hlen, Nat.add_mul_mod_self_right, Nat.mod_eq_of_lt hf]
  have hfr : regionFrames c (F ++ s.fb.span 0 s.fcnt.toNat) = regionFrames c F := by
    rw [regionFrames_append hF, regionFrames_short (X := s.fb.span 0 _) (by rwa [Memory.span_length]), List.append_nil]
  rw [sessionEvents, hdiv, hmod, hfr, hout, h.last_index, hq, BitVec.ofNat_toNat, List.append_assoc]

/-- COMMIT in a session (R178): the byte completes a frame, or is one more of it. -/
theorem InSession.commit (h : InSession c n skipped X out s) (x : Byte) :
    ∃ t, commit x s = .ok t ∧ InSession c n skipped (X ++ [x]) out t := by
  have hn := h.last_index
  obtain ⟨rfl, hp, hm, hg, hs, hf, F, q, rfl, hF, hq, hout⟩ := h
  have hle := frameSize_le s.ctrl
  have hw := Memory.write_wf hm (a := s.fcnt.toNat) (by rw [fsMax_eq]; omega) x
  have hlen : (s.fb.span 0 s.fcnt.toNat ++ [x]).length = s.fcnt.toNat + 1 := by simp
  refine ⟨_, commit_session x (by simp [hp]) hm hf, ?_⟩
  split
  · next hlast =>
    have hone : regionFrames s.ctrl (s.fb.span 0 s.fcnt.toNat ++ [x]) =
        [decodeSpan s.ctrl (s.fb.span 0 s.fcnt.toNat ++ [x])] := by
      rw [regionFrames_cons (by omega), List.take_of_length_le (by omega), List.drop_of_length_le (by omega),
        regionFrames_short (by simp; omega)]
    refine ⟨rfl, hp, hw, hg, hs, by simp; omega, F ++ (s.fb.span 0 s.fcnt.toNat ++ [x]), q + 1, by simp, ?_, ?_, ?_⟩
    · rw [List.length_append, hlen, hF, hlast, Nat.succ_mul]
    · simp only [hq, BitVec.ofNat_add]
      rfl
    · simp only [regionFrames_append hF, hone, hn, hout]
      simp
  · next hlast =>
    have hsucc : (s.fcnt + 1).toNat = s.fcnt.toNat + 1 := fcnt_succ hf hle
    refine ⟨rfl, hp, hw, hg, hs, by simp only [hsucc]; omega, F, q, ?_, hF, hq, hout⟩
    simp only [hsucc, Memory.span_write_end hm, List.append_assoc]

/-- The place of the block in a capture: PREAMBLE, or the session of a number with the bytes skipped before it. -/
def InRegion (c : Ctrl) : Option (Nat × Nat) → List Byte → List Event → State → Prop
  | none => InPreamble c
  | some (n, skipped) => InSession c n skipped

/-- The events of the batch definition from the region on whose first byte is the first of `Y` (R175). -/
def regionEvents (c : Ctrl) : Option (Nat × Nat) → List Byte → List Event
  | none, Y => captureEvents c Y
  | some (n, skipped), Y => sessionsEvents c n skipped (regionHead Y :: sessionRegions Y) ++ [.closed 0#32]

variable {r : Option (Nat × Nat)}

/-- The pending bytes, the lock, `BYTES_IN` and the input are no matter of the region. -/
theorem InRegion.withPorts (h : InRegion c r X out s) (j : BitVec 2) (l : Bool) (b : Counter) (i : List Input) :
    InRegion c r X out { s with j := j, locked := l, bytesIn := b, input := i } := by
  cases r with
  | none => exact ⟨h.ctrl, h.phase, h.wf, h.gap, h.sessions, h.output⟩
  | some p => exact ⟨h.ctrl, h.phase, h.wf, h.gap, h.sessions, h.below, h.frames⟩

theorem InRegion.ctrl_eq (h : InRegion c r X out s) : s.ctrl = c := by
  cases r with
  | none => exact h.ctrl
  | some p => exact h.ctrl

theorem InRegion.phase_ne_closed (h : InRegion c r X out s) : s.phase ≠ .closed := by
  cases r with
  | none => simp [InPreamble.phase h]
  | some p => simp [InSession.phase h]

theorem InRegion.commitAll {bs : List Byte} : ∀ {X : List Byte} {s : State}, InRegion c r X out s →
    ∃ t, commitAll bs s = .ok t ∧ InRegion c r (X ++ bs) out t := by
  induction bs with
  | nil => exact fun {X s} h => ⟨s, rfl, by rwa [List.append_nil]⟩
  | cons x bs ih =>
    intro X s h
    have hone : ∃ t, commit x s = .ok t ∧ InRegion c r (X ++ [x]) out t := by
      cases r with
      | none =>
        refine ⟨_, commit_preamble x h.phase, h.ctrl, h.phase, h.wf, ?_, h.sessions, h.output⟩
        simp [InPreamble.gap h, BitVec.ofNat_add]
      | some p => exact InSession.commit h x
    obtain ⟨t, ht, h'⟩ := hone
    obtain ⟨u, hu, h''⟩ := ih h'
    exact ⟨u, by rw [commitAll_cons, ht]; exact hu, by rwa [List.append_assoc] at h''⟩

/-! ### FEED and EOS -/

/-- FEED of `A5` with fewer than three pending (R176). -/
theorem InRegion.feed_pending (ho : isOffline c = true) (h : InRegion c r X out s) (hj : s.j ≠ 3#2) :
    ∃ t, exec (.feed 0xA5#8) s = .next t ∧ InRegion c r X out t ∧ t.j.toNat = s.j.toNat + 1 ∧ t.input = s.input := by
  have hlt : s.j.toNat ≠ 3 := fun he => hj (BitVec.eq_of_toNat_eq he)
  refine ⟨_, offlineMarkerByte.1 s (by rwa [h.ctrl_eq]) h.phase_ne_closed hj, h.withPorts _ _ _ _, ?_, rfl⟩
  have := s.j.isLt
  rw [BitVec.toNat_add, Nat.mod_eq_of_lt (by simp; omega)]
  rfl

/-- FEED of the fourth `A5` (R176): the batch definition has a marker there, and the next session begins. -/
theorem InRegion.feed_marker (ho : isOffline c = true) (h : InRegion c r X out s) (hno : NoMarkerStarts X)
    (hj : s.j = 3#2) : ∃ t r' out', exec (.feed 0xA5#8) s = .next t ∧ InRegion c r' [] out' t ∧ t.j = 0#2 ∧
      t.input = s.input ∧
      ∀ T, out ++ regionEvents c r (X ++ (Config.sessionMarker ++ T)) = out' ++ regionEvents c r' T := by
  have hfirst := hno.firstMarker_marker
  have hdrop : ∀ T, (X ++ (Config.sessionMarker ++ T)).drop (X.length + 4) = T := fun T => by
    rw [← List.append_assoc]
    exact List.drop_left' (by simp [Config.sessionMarker])
  cases r with
  | none =>
    refine ⟨_, some (0, X.length), out, offlineMarkerByte.2.1 s (by rwa [h.ctrl_eq]) h.phase hj,
      inSession_nil h.ctrl rfl h.wf rfl ?_ rfl rfl ?_, rfl, rfl, fun T => ?_⟩
    · simp only [InPreamble.sessions h]
      rfl
    · simp only [InPreamble.output h, InPreamble.sessions h, InPreamble.gap h]
    · rw [regionEvents, captureEvents_of_some (hfirst T), hdrop, regionEvents]
  | some p =>
    obtain ⟨n, skipped⟩ := p
    refine ⟨_, some (n + 1, 0), out ++ sessionEvents c n skipped X,
      offlineMarkerByte.2.2 s (by rwa [h.ctrl_eq]) h.phase hj,
      inSession_nil h.ctrl rfl h.wf rfl ?_ rfl rfl ?_, rfl, rfl, fun T => ?_⟩
    · simp only [InSession.sessions h]
      exact (BitVec.ofNat_add (n + 1) 1).symm
    · rw [← InSession.report h, ← InSession.sessions h, InSession.gap h]
      simp
    · rw [regionEvents, regionHead_of_some (hfirst T), sessionRegions_of_some (hfirst T), hdrop, regionEvents,
        List.take_left, sessionsEvents]
      simp

/-- FEED of any other byte (R177): the pending bytes and the byte are data. -/
theorem InRegion.feed_other {b : Byte} (ho : isOffline c = true) (h : InRegion c r X out s) (hb : b ≠ 0xA5#8) :
    ∃ t, exec (.feed b) s = .next t ∧ InRegion c r (X ++ (List.replicate s.j.toNat 0xA5#8 ++ [b])) out t ∧
      t.j = 0#2 ∧ t.input = s.input := by
  obtain ⟨t, ht, h'⟩ := (h.withPorts 0#2 true (s.bytesIn + 1) s.input).commitAll
    (bs := List.replicate s.j.toNat 0xA5#8 ++ [b])
  obtain ⟨-, -, hj, -, -, -, -, -, -, -, -, -, -, hin⟩ := commitAll_fields ht
  refine ⟨t, ?_, h', hj, hin⟩
  rw [exec_feed_other (by rwa [h.ctrl_eq]) h.phase_ne_closed hb]
  exact finish_eq_next.2 ht

/-- EOS (R180): the pending bytes are data, and the batch definition has no more marker. -/
theorem InRegion.eos (ho : isOffline c = true) (h : InRegion c r X out s) (hno : NoMarkerStarts X) :
    ∃ t, exec .eos s = .next t ∧ t.output = out ++ regionEvents c r (X ++ List.replicate s.j.toNat 0xA5#8) ∧
      t.phase = .closed := by
  obtain ⟨u, hu, h'⟩ := (h.withPorts 0#2 true s.bytesIn s.input).commitAll (bs := List.replicate s.j.toNat 0xA5#8)
  have hnone := hno.firstMarker_pending s.j.isLt
  have hexec : exec .eos s = .next (endCapture u) := by
    rw [exec_eos_offline (by rwa [h.ctrl_eq]) h.phase_ne_closed]
    exact finish_eq_next.2 (congrArg (Except.map endCapture) hu)
  refine ⟨_, hexec, ?_⟩
  cases r with
  | none =>
    rw [((endCapture_cases u).resolve_left fun hc => by simp [InPreamble.phase h'] at hc).2]
    refine ⟨?_, rfl⟩
    rw [regionEvents, captureEvents_of_none hnone]
    simp only [InPreamble.output h', InPreamble.gap h']
  | some p =>
    rw [((endCapture_cases u).resolve_right fun hc => hc.1 (InSession.phase h')).2]
    refine ⟨?_, rfl⟩
    rw [regionEvents, regionHead_of_none hnone, sessionRegions_of_none hnone, sessionsEvents, sessionsEvents,
      List.append_nil, ← List.append_assoc, ← InSession.report h', InSession.gap h', List.append_assoc]
    rfl

/-! ### A whole capture -/

/-- The bytes of a capture from a region on, fed one by one and closed by EOS: the events are those of the batch
definition. -/
theorem InRegion.run (ho : isOffline c = true) (T : List Byte) : ∀ {r : Option (Nat × Nat)} {X : List Byte}
    {out : List Event} {s : State}, InRegion c r X out s → NoMarkerStarts X → s.input = feedInput T ++ [eosInput] →
      ∃ t, Sys2Proof.core.run (T.length + 1) s = .next t ∧
        t.output = out ++ regionEvents c r (X ++ (List.replicate s.j.toNat 0xA5#8 ++ T)) ∧ t.phase = .closed := by
  induction T with
  | nil =>
    intro r X out s h hno hi
    obtain ⟨t, ht, hout, hphase⟩ := (h.withPorts s.j s.locked s.bytesIn []).eos ho hno
    exact ⟨t, run_one ((step_eos hi).trans ht), by rw [hout, List.append_nil], hphase⟩
  | cons b T ih =>
    intro r X out s h hno hi
    have hs := h.withPorts s.j s.locked s.bytesIn (feedInput T ++ [eosInput])
    have hstep := step_feed hi
    by_cases hb : b = 0xA5#8
    · subst hb
      by_cases hj : s.j = 3#2
      · obtain ⟨u, r', out', hu, h', hj', hi', hev⟩ := hs.feed_marker ho hno hj
        obtain ⟨t, ht, hout, hphase⟩ := ih h' noMarkerStarts_nil hi'
        refine ⟨t, (run_next (hstep.trans hu)).trans ht, ?_, hphase⟩
        have hmark : List.replicate s.j.toNat 0xA5#8 ++ 0xA5#8 :: T = Config.sessionMarker ++ T := by rw [hj]; rfl
        rw [hout, hmark, hev, hj']
        rfl
      · obtain ⟨u, hu, h', hj', hi'⟩ := hs.feed_pending ho hj
        obtain ⟨t, ht, hout, hphase⟩ := ih h' hno hi'
        refine ⟨t, (run_next (hstep.trans hu)).trans ht, ?_, hphase⟩
        rw [hout, hj', List.replicate_succ', List.append_assoc, List.singleton_append]
    · obtain ⟨u, hu, h', hj', hi'⟩ := hs.feed_other ho hb
      obtain ⟨t, ht, hout, hphase⟩ := ih h' (hno.append (noMarkerStarts_pending s.j.isLt hb)) hi'
      refine ⟨t, (run_next (hstep.trans hu)).trans ht, ?_, hphase⟩
      rw [hout, hj']
      simp

/-- Settles O48: a fresh state is in PREAMBLE. -/
theorem offlineRunIsTheBatchDefinition : Obligations.OfflineRunIsTheBatchDefinition := by
  intro c C past ho
  have hfresh : InRegion c none [] past
      { State.reset with ctrl := c, input := feedInput C ++ [eosInput], output := past } :=
    ⟨rfl, rfl, rfl, rfl, rfl, rfl⟩
  exact hfresh.run ho C noMarkerStarts_nil rfl

end Sys2Proof.Machine
end

section
/-! SUPPORT. Token dispatch and the control operations (43_control_ops.md R200 to R207): the token of each instruction,
the register map that READ reads, and what NOP, READ, CFG_WRITE, FEED and EOS do in every state. -/

namespace Sys2Proof

/-- The machine's build has the offline unit, so every instruction has its one token (30_encoding.md R92, log 9). -/
theorem decode_eq_some_iff {t : Token} {i : Instr} : decode t = some i ↔ t = encode i := by
  have hwf : i.wfWith Config.hasOffline = true := by cases i <;> rfl
  rw [decode, decodeWith_eq_some_iff_encode, and_iff_left hwf, eq_comm]

end Sys2Proof

namespace Sys2Proof.Machine

variable {s : State}

/-! ### The errors they raise (60_exceptions.md R231) -/

theorem raiseError_illegalToken (t : Token) (s : State) : raiseError .illegalToken t s =
    { s with errIllegal := true, output := s.output ++ [.error .illegalToken t] } := rfl

theorem raiseError_cfgLocked (t : Token) (s : State) : raiseError .cfgLocked t s =
    { s with errCfg := true, output := s.output ++ [.error .cfgLocked t] } := rfl

theorem raiseError_afterClose (t : Token) (s : State) : raiseError .afterClose t s =
    { s with errAfterClose := true, output := s.output ++ [.error .afterClose t] } := rfl

/-! ### Dispatch (R200, R205) -/

theorem runToken_of_some {t : Token} {i : Instr} (h : decode t = some i) : runToken t s = exec i s := by
  rw [runToken, h]

theorem runToken_of_none {t : Token} (h : decode t = none) :
    runToken t s = .next (raiseError .illegalToken t s) := by
  rw [runToken, h, illegalToken]

/-- Settles O3, by what is taken from the input. -/
theorem stepRunsTheDecodedToken : Obligations.StepRunsTheDecodedToken := by
  refine ⟨fun s t rest i hi hd => ?_, fun s t rest hi hd => ?_, fun s => step_idle⟩
  · rw [step_token hi, runToken_of_some hd]
  · rw [step_token hi, runToken_of_none hd, raiseError_illegalToken]

theorem decodeTableWord_of_lt {w : Nat} (h : w < 2 ^ 32) : decodeTableWord 32 w = decode (BitVec.ofNat 32 w) := by
  rw [decodeTableWord, Nat.mod_eq_of_lt h, if_pos h]

theorem step_withFetchWord {w : Nat} (h : w < 2 ^ 32) :
    step (s.withFetchWord 32 w) = runToken (BitVec.ofNat 32 w) s := by
  have hi : (s.withFetchWord 32 w).input = .token (BitVec.ofNat 32 w) :: s.input := by
    rw [State.withFetchWord, Nat.mod_eq_of_lt h]
  exact step_token hi

/-- Settles O4: the placed word is taken first, and leaves the state it was placed in. -/
theorem fetchedWordIsRun : Obligations.FetchedWordIsRun := by
  intro s w hw
  rw [step_withFetchWord hw, decodeTableWord_of_lt hw]
  cases hd : decode (BitVec.ofNat 32 w) with
  | none => exact runToken_of_none hd
  | some i => exact runToken_of_some hd

/-- Settles O11: the NOP row has no free bit. -/
theorem nopChangesNothing : Obligations.NopChangesNothing :=
  ⟨fun t => by rw [decode_eq_some_iff, encode_nop], fun _ => rfl⟩

/-! ### The register map (10_state.md R32, R45) -/

theorem addr_of_regAt {a : RegAddr} {r : RegName} (h : regAt a = some r) : r.addr = a := by
  rw [regAt] at h
  simpa using List.find?_some h

theorem addr_ne_of_regAt_eq_none {a : RegAddr} (h : regAt a = none) : ∀ r ∈ RegName.all, a ≠ r.addr :=
  fun r hr ha => List.find?_eq_none.1 h r hr (beq_iff_eq.2 ha.symm)

/-- `FRAME_SIZE` as a word (10_state.md R28, R41). -/
theorem ofNat_frameSize (c : Ctrl) : BitVec.ofNat 32 (frameSize c) =
    if c.getLsbD 8 then 36#32 else 12#32 + 2#32 * (c &&& 0xFF#11).setWidth 32 := by
  have hn : (c &&& 0xFF#11).setWidth 32 = BitVec.ofNat 32 (c.toNat % 256) := by
    rw [← BitVec.ofNat_toNat, BitVec.toNat_and]
    exact congrArg _ (Nat.and_two_pow_sub_one_eq_mod _ 8)
  rw [(derivedFromCtrl c).1, hn]
  cases c.getLsbD 8
  · simp [BitVec.ofNat_add, BitVec.ofNat_mul]
  · rfl

/-- Settles O12: an address is that of one register of the map, or of none. -/
theorem readEmitsTheRegister : Obligations.ReadEmitsTheRegister := by
  refine ⟨fun t a => by rw [decode_eq_some_iff, encode_read], fun a s => ?_⟩
  rw [← ofNat_frameSize, exec, execRead, emit]
  congr 4
  cases hr : regAt a with
  | some r =>
    obtain rfl := addr_of_regAt hr
    rw [readReg, hr]
    cases r <;> simp [RegName.addr, regValueWith, ctrlWord, Config.idValue]
  | none =>
    have hne := addr_ne_of_regAt_eq_none hr
    simp only [RegName.all, RegName.addr, List.forall_mem_cons] at hne
    simp [readReg, hr, hne]

/-! ### CFG_WRITE (R202) -/

theorem exec_cfgWrite (v : Ctrl) (s : State) : exec (.cfgWrite v) s = .next (cfgWriteWith true v s) := rfl

theorem cfgWriteWith_unlocked (v : Ctrl) (h : s.locked = false) : cfgWriteWith true v s = { s with ctrl := v } := by
  simp [cfgWriteWith, h]

theorem cfgWriteWith_locked (v : Ctrl) (h : s.locked = true) :
    cfgWriteWith true v s = raiseError .cfgLocked (encode (.cfgWrite v)) s := by
  simp [cfgWriteWith, h]

/-- Settles O14: the machine has the offline unit, so its own CFG_WRITE depends on `LOCKED` alone. -/
theorem cfgWriteWritesOnlyWhileUnlocked : Obligations.CfgWriteWritesOnlyWhileUnlocked := by
  refine ⟨fun t v => ?_, fun off v s => ?_, fun v s hl => ?_, fun v s hl => ?_⟩
  · rw [decode_eq_some_iff, encode_cfgWrite]
  · rw [cfgWriteWith, illegalToken, raiseError_illegalToken, raiseError_cfgLocked, encode_cfgWrite]
  · rw [exec_cfgWrite, cfgWriteWith_unlocked v hl]
  · rw [exec_cfgWrite, cfgWriteWith_locked v hl, raiseError_cfgLocked, encode_cfgWrite]

/-! ### FEED and EOS (R206, R207) -/

theorem isOffline_eq (c : Ctrl) : isOffline c = c.getLsbD 10 := modeWithoutTheOfflineUnit.1 c

/-- Settles O17, by the phase and the unit that `CTRL.MODE` selects. -/
theorem feedAndEosDispatch : Obligations.FeedAndEosDispatch := by
  refine ⟨fun t b => ?_, fun t => ?_, fun b s => ?_, fun s => ?_⟩
  · rw [decode_eq_some_iff, encode_feed]
  · rw [decode_eq_some_iff, encode_eos]
  · rw [← isOffline_eq, ← encode_feed]
    split_ifs with hp ho hh hb
    · rw [exec_feed_closed b hp, raiseError_afterClose]
    · exact exec_feed_hunt b ho hh
    · exact exec_feed_collect b ho (Phase.eq_collect hh hp)
    · rw [hb]
      exact exec_feed_a5 (by simpa using ho) hp
    · exact exec_feed_other (by simpa using ho) hp hb
  · rw [← isOffline_eq, ← encode_eos]
    split_ifs with hp ho
    · rw [exec_eos_closed hp, raiseError_afterClose]
    · exact exec_eos_live ho hp
    · exact exec_eos_offline (by simpa using ho) hp

/-! ### What they leave unchanged -/

/-- Settles O25, by the instruction, and for CFG_WRITE by `LOCKED`. -/
theorem controlFrame : Obligations.ControlFrame := by
  rintro i s t (rfl | ⟨a, rfl⟩ | ⟨v, rfl⟩) h
  · cases h
    simp
  · cases h
    simp
  · rw [exec_cfgWrite] at h
    cases hl : s.locked
    · rw [cfgWriteWith_unlocked v hl] at h
      cases h
      simp [hl]
    · rw [cfgWriteWith_locked v hl] at h
      cases h
      simp [hl]

end Sys2Proof.Machine
end

section
/-! SUPPORT. Errors and events (60_exceptions.md R231, R235, R237): what CLOSED allows a step to change, and the events
each operation of the units can append to the trace, in order. -/

namespace Sys2Proof.Machine

variable {b : Byte} {s t : State}

/-- Settles O10: `raise` is one flag and one event, and the codes are 30_encoding.md R95's. -/
theorem raiseSetsTheFlagAndEmits : Obligations.RaiseSetsTheFlagAndEmits :=
  ⟨raiseError_illegalToken, raiseError_cfgLocked, raiseError_afterClose, rfl, rfl, rfl, rfl⟩

/-! ### CLOSED (R237) -/

/-- Two states with the same elements but for the error flags and the ports. -/
def SameButErrorsAndPorts (s t : State) : Prop :=
  t = { s with errCfg := t.errCfg, errIllegal := t.errIllegal, errAfterClose := t.errAfterClose
               input := t.input, output := t.output }

theorem raiseError_sameButErrorsAndPorts (e : ErrorKind) (w : Token) (s : State) :
    SameButErrorsAndPorts s (raiseError e w s) := by
  cases e <;> rfl

/-- In CLOSED a CFG_WRITE is refused as locked, and FEED and EOS as after the close. -/
theorem exec_closed_sameButErrorsAndPorts {i : Instr} (hi : s.Inv) (hp : s.phase = .closed) (h : exec i s = .next t)
    (hr : i ≠ .restart) : SameButErrorsAndPorts s t := by
  rcases exec_cases h with ⟨-, rfl⟩ | ⟨a, -, rfl⟩ | ⟨rfl, -⟩ | ⟨v, -, hl, -⟩ | ⟨v, -, -, rfl⟩ | ⟨-, -, rfl⟩ |
    ⟨b, -, ho, -⟩ | ⟨-, ho, -⟩
  · rfl
  · rfl
  · exact absurd rfl hr
  · exact absurd hp (hi.open_of_unlocked hl)
  · exact raiseError_sameButErrorsAndPorts _ _ s
  · exact raiseError_sameButErrorsAndPorts _ _ s
  · exact absurd hp ho
  · exact absurd hp ho

/-- Settles O38, by what is taken from the input. -/
theorem closedIsTerminal : Obligations.ClosedIsTerminal := by
  intro s t hi hp h hr
  rcases step_cases_of_not_restarts h hr with ⟨-, rfl⟩ | ⟨w, rest, -, ⟨-, rfl⟩ | ⟨i, hne, -, he⟩⟩
  · rfl
  · exact raiseError_sameButErrorsAndPorts .illegalToken w { s with input := rest }
  · exact exec_closed_sameButErrorsAndPorts (s := { s with input := rest }) (hi.withInput rest) hp he hne

/-! ### The events of FEED and EOS (R235) -/

/-- FEED in live mode: a RESYNC comes from HUNT only, a FRAME from COLLECT only. -/
theorem feedUnit_live_events (ho : isOffline s.ctrl = false) (h : feedUnit b s = .ok t) :
    ∃ es, t.output = s.output ++ es ∧ (es = [] ∨ (∃ g, es = [.resync g]) ∨ ∃ r, es = [.frame 0#32 r]) := by
  by_cases hh : s.phase = .hunt
  · rw [feedUnit_hunt b ho hh] at h
    cases h
    rcases feedLiveHunt_cases b s with ⟨-, he⟩ | ⟨-, he⟩ | ⟨d, k, he⟩ <;> rw [he]
    · exact ⟨[], by simp⟩
    · exact ⟨_, rfl, .inr (.inl ⟨_, rfl⟩)⟩
    · exact ⟨[], by simp⟩
  · rw [feedUnit_collect b ho hh] at h
    rcases feedLiveCollect_cases h with rfl | ⟨r, rfl⟩
    · exact ⟨[], by simp⟩
    · exact ⟨_, rfl, .inr (.inr ⟨r, rfl⟩)⟩

/-- The bytes one token commits are fewer than a frame has, so at most one frame is completed, and in a session only
(42_offline_splitter.md R178). -/
theorem commitAll_events {bs : List Byte} (hi : s.Inv) (hp : s.phase ≠ .closed) (hl : bs.length ≤ 4)
    (h : commitAll bs { s with j := 0#2 } = .ok t) :
    ∃ es, t.output = s.output ++ es ∧ (es = [] ∨ s.phase = .collect ∧ ∃ n r, es = [.frame n r]) := by
  by_cases hh : s.phase = .hunt
  · rw [commitAll_preamble bs (by exact hh)] at h
    cases h
    exact ⟨[], by simp⟩
  · have hc := Phase.eq_collect hh hp
    have h12 := frameSize_ge s.ctrl
    obtain ⟨fb, he, -⟩ := commitAll_session (bs := bs) (s := { s with j := 0#2 }) hc hi.fbCanonical hi.fcntBelow
      (by simp only; omega)
    rw [he] at h
    split at h <;> cases h
    · exact ⟨[], by simp⟩
    · exact ⟨_, rfl, .inr ⟨hc, _, _, rfl⟩⟩

/-- FEED in offline mode: `A5` can only begin a session, any other byte can only complete a frame. -/
theorem feedUnit_offline_events (hi : s.Inv) (ho : isOffline s.ctrl = true) (hp : s.phase ≠ .closed)
    (h : feedUnit b s = .ok t) :
    ∃ es, t.output = s.output ++ es ∧ (es = [] ∨ (∃ n r, es = [.frame n r]) ∨
      (∃ n f x m k, es = [.sessionEnd n f x, .sessionStart m k]) ∨ ∃ m k, es = [.sessionStart m k]) := by
  by_cases hb : b = 0xA5#8
  · rw [hb, feedUnit_a5 ho] at h
    cases h
    rcases feedOfflineA5_cases s with ⟨k, he⟩ | ⟨-, he⟩ | ⟨-, he⟩ <;> rw [he]
    · exact ⟨[], by simp⟩
    · exact ⟨_, rfl, .inr (.inr (.inr ⟨_, _, rfl⟩))⟩
    · exact ⟨_, rfl, .inr (.inr (.inl ⟨_, _, _, _, _, rfl⟩))⟩
  · rw [feedUnit_other ho hb] at h
    have hj := s.j.isLt
    obtain ⟨es, hout, hes⟩ := commitAll_events hi hp (by simp; omega) h
    exact ⟨es, hout, hes.imp_right fun hf => .inl hf.2⟩

theorem eosUnit_live_events (ho : isOffline s.ctrl = false) (h : eosUnit s = .ok t) :
    ∃ es, t.output = s.output ++ es ∧ ∃ u, es = [.closed u] := by
  rw [eosUnit_live ho] at h
  cases h
  exact ⟨_, rfl, _, rfl⟩

/-- EOS in offline mode: the pending bytes can complete a frame in a session only, and that session is then ended
(42_offline_splitter.md R180). -/
theorem eosUnit_offline_events (hi : s.Inv) (ho : isOffline s.ctrl = true) (hp : s.phase ≠ .closed)
    (h : eosUnit s = .ok t) :
    ∃ es, t.output = s.output ++ es ∧ ((∃ n f x u, es = [.sessionEnd n f x, .closed u]) ∨
      (∃ m r n f x u, es = [.frame m r, .sessionEnd n f x, .closed u]) ∨ ∃ u, es = [.noMarker, .closed u]) := by
  obtain ⟨u, hc, rfl⟩ := ((eosUnit_cases h).resolve_left (by simp [ho])).2
  have hj := s.j.isLt
  have hphase : u.phase = s.phase := (commitAll_fields hc).2.1
  obtain ⟨es, hout, hes⟩ := commitAll_events hi hp (by simp; omega) hc
  rcases endCapture_cases u with ⟨-, he⟩ | ⟨hn, he⟩ <;> rw [he] <;> simp only [hout, List.append_assoc]
  · rcases hes with rfl | ⟨-, m, r, rfl⟩
    · exact ⟨_, rfl, .inl ⟨_, _, _, _, rfl⟩⟩
    · exact ⟨_, rfl, .inr (.inl ⟨m, r, _, _, _, _, rfl⟩)⟩
  · obtain rfl := hes.resolve_right fun hf => hn (hphase.trans hf.1)
    exact ⟨_, rfl, .inr (.inr ⟨_, rfl⟩)⟩

/-- Settles O40: FEED and EOS by the phase and the unit that `CTRL.MODE` selects, CFG_WRITE by `LOCKED`. -/
theorem eventsOfOneToken : Obligations.EventsOfOneToken := by
  intro i s t hi h
  cases i with
  | nop => cases h; exact ⟨[], by simp⟩
  | restart => cases h; exact ⟨[], by simp⟩
  | read a => cases h; exact ⟨_, rfl, _, rfl⟩
  | cfgWrite v =>
    rw [exec_cfgWrite] at h
    cases hl : s.locked
    · rw [cfgWriteWith_unlocked v hl] at h
      cases h
      exact ⟨[], by simp⟩
    · rw [cfgWriteWith_locked v hl] at h
      cases h
      exact ⟨_, rfl, .inr rfl⟩
  | feed b =>
    by_cases hp : s.phase = .closed
    · rw [exec_feed_closed b hp] at h
      cases h
      exact ⟨_, rfl, by simp [hp]⟩
    · rw [exec_feed_open b hp, finish_eq_next] at h
      simp only [if_neg hp]
      split
      · next ho => exact feedUnit_offline_events (s := s.fed) hi.fed ho hp h
      · next ho => exact feedUnit_live_events (s := s.fed) (by simpa using ho) h
  | eos =>
    by_cases hp : s.phase = .closed
    · rw [exec_eos_closed hp] at h
      cases h
      exact ⟨_, rfl, by simp [hp]⟩
    · rw [exec_eos_open hp, finish_eq_next] at h
      simp only [if_neg hp]
      split
      · next ho => exact eosUnit_offline_events (s := s.ended) hi.ended ho hp h
      · next ho => exact eosUnit_live_events (s := s.ended) (by simpa using ho) h

end Sys2Proof.Machine
end

section
/-! SUPPORT. Reset and the boot order (70_reset_and_hazards.md R260, R263, R274): the reset input, the end of a run by
EOS, and where the block stands while a host obeys the boot order. -/

namespace Sys2Proof.Machine

variable {p q : HostStage} {s t : State}

/-- Settles O2: the reset input is taken as an entry of the input list. -/
theorem resetInputClearsEveryElement : Obligations.ResetInputClearsEveryElement := fun _ _ => step_reset

/-! ### The end of a run (R274) -/

theorem endCapture_closes (s : State) :
    (endCapture s).phase = .closed ∧ ∃ e, (endCapture s).output = s.output ++ [e, .closed s.gap] := by
  rcases endCapture_cases s with ⟨-, he⟩ | ⟨-, he⟩ <;> rw [he]
  · exact ⟨rfl, _, rfl⟩
  · exact ⟨rfl, _, rfl⟩

/-- EOS commits what is pending, then closes: nothing is emitted after CLOSED (41_live_sync.md R145,
42_offline_splitter.md R180). -/
theorem eosUnit_closes (h : eosUnit s = .ok t) :
    t.phase = .closed ∧ ∃ es u, t.output = s.output ++ es ++ [.closed u] := by
  rcases eosUnit_cases h with ⟨-, rfl⟩ | ⟨-, v, hc, rfl⟩
  · exact ⟨rfl, [], _, by rw [List.append_nil]; rfl⟩
  · obtain ⟨es, hcommit, -⟩ := unitRelation_emitsNoError.commitAll hc
    obtain ⟨hclosed, e, hend⟩ := endCapture_closes v
    exact ⟨hclosed, es ++ [e], v.gap, by simp [hend, hcommit]⟩

theorem runEnded_iff : s.runEnded = true ↔ s.phase = .closed := beq_iff_eq

/-- Settles O47: outside CLOSED an EOS is accepted, and completes. -/
theorem eosEndsTheRun : Obligations.EosEndsTheRun := by
  intro s hi hr
  have hp : s.phase ≠ .closed := fun hc => by simp [runEnded_iff.2 hc] at hr
  obtain ⟨t, ht, -⟩ := everyInstructionCompletes .eos s hi
  have hu := ht
  rw [exec_eos_open hp, finish_eq_next] at hu
  obtain ⟨hclosed, es, u, hout⟩ := eosUnit_closes hu
  exact ⟨t, es, u, ht, runEnded_iff.2 hclosed, hout⟩

/-! ### What one instruction leaves of the input and of the phase -/

theorem exec_keeps_input {i : Instr} (hi : s.Inv) (h : exec i s = .next t) : t.input = s.input := by
  rcases exec_cases h with ⟨-, rfl⟩ | ⟨a, -, rfl⟩ | ⟨-, rfl⟩ | ⟨v, -, -, rfl⟩ | ⟨v, -, -, rfl⟩ | ⟨-, -, rfl⟩ |
    ⟨b, rfl, -, -⟩ | ⟨rfl, -, -⟩
  · rfl
  · rfl
  · rfl
  · rfl
  · exact raiseError_input ..
  · exact raiseError_input ..
  · obtain ⟨-, -, -, -, -, hin, -⟩ := feedFrame b s t hi.fbCanonical hi.fcntBelow h
    exact hin
  · obtain ⟨-, -, -, -, hin, -⟩ := eosFrame s t hi.fbCanonical hi.fcntBelow h
    exact hin

/-- FEED moves between HUNT and COLLECT, PREAMBLE and SESSION only (41_live_sync.md R143, R144, 42_offline_splitter.md
R176, R177). -/
theorem feedUnit_keeps_open {b : Byte} (hp : s.phase ≠ .closed) (h : feedUnit b s = .ok t) : t.phase ≠ .closed := by
  rcases feedUnit_cases h with ⟨-, -, rfl⟩ | ⟨-, -, hc⟩ | ⟨-, -, rfl⟩ | ⟨-, -, hc⟩
  · rcases feedLiveHunt_cases b s with ⟨-, he⟩ | ⟨-, he⟩ | ⟨d, k, he⟩ <;> simp [he, hp]
  · rcases feedLiveCollect_cases hc with rfl | ⟨r, rfl⟩ <;> simp [hp]
  · rcases feedOfflineA5_cases s with ⟨k, he⟩ | ⟨-, he⟩ | ⟨-, he⟩ <;> simp [he, hp]
  · obtain ⟨-, hphase, -⟩ := commitAll_fields hc
    rwa [hphase]

/-! ### A host that obeys the boot order (R263) -/

/-- Where the block stands while a host that obeys the boot order is at a stage: no CFG_WRITE is refused before the
first FEED or EOS, and no FEED or EOS before the first EOS. -/
structure HostStage.Fits (p : HostStage) (s : State) : Prop where
  unlocked : p = .configure → s.locked = false
  notClosed : p ≠ .done → s.phase ≠ .closed

theorem HostStage.obeys_cons {x : Input} {xs : List Input} :
    p.obeys (x :: xs) = true ↔ ∃ q, p.next x = some q ∧ q.obeys xs = true := by
  rw [HostStage.obeys]
  cases p.next x <;> simp

/-- An instruction the boot order allows raises no error, and leaves the block where the host's next stage needs it. -/
theorem HostStage.Fits.exec {w : Token} {i : Instr} (h : p.Fits s) (hd : decode w = some i)
    (hn : p.next (.token w) = some q) (he : exec i s = .next t) :
    q.Fits t ∧ AppendsOnly (fun e => e.isError = false) s t := by
  cases i with
  | nop =>
    obtain rfl : p = q := by simpa [HostStage.next, hd] using hn
    cases he
    exact ⟨h, appendsOnly_of_eq rfl⟩
  | read a =>
    obtain rfl : p = q := by simpa [HostStage.next, hd] using hn
    cases he
    exact ⟨⟨h.unlocked, h.notClosed⟩, appendsOnly_of_one rfl rfl⟩
  | restart =>
    cases he
    exact ⟨⟨fun _ => rfl, fun _ => nofun⟩, appendsOnly_of_eq rfl⟩
  | cfgWrite v =>
    obtain ⟨hp, rfl⟩ : p = .configure ∧ .configure = q := by simpa [HostStage.next, hd] using hn
    rw [exec_cfgWrite, cfgWriteWith_unlocked v (h.unlocked hp)] at he
    cases he
    exact ⟨⟨fun _ => h.unlocked hp, fun _ => h.notClosed (by simp [hp])⟩, appendsOnly_of_eq rfl⟩
  | feed b =>
    obtain ⟨hp, rfl⟩ : p ≠ .done ∧ .stream = q := by simpa [HostStage.next, hd] using hn
    rw [exec_feed_open b (h.notClosed hp), finish_eq_next] at he
    have hopen : t.phase ≠ .closed := feedUnit_keeps_open (s := s.fed) (h.notClosed hp) he
    exact ⟨⟨nofun, fun _ => hopen⟩, feedUnit_emitsNoError (s := s.fed) he⟩
  | eos =>
    obtain ⟨hp, rfl⟩ : p ≠ .done ∧ .done = q := by simpa [HostStage.next, hd] using hn
    rw [exec_eos_open (h.notClosed hp), finish_eq_next] at he
    exact ⟨⟨nofun, fun hq => absurd rfl hq⟩, eosUnit_emitsNoError (s := s.ended) he⟩

/-- A step that takes what the boot order allows next. -/
theorem HostStage.Fits.step {x : Input} {rest : List Input} (h : p.Fits s) (hi : s.Inv) (hx : s.input = x :: rest)
    (hn : p.next x = some q) :
    ∃ t, step s = .next t ∧ t.Inv ∧ t.input = rest ∧ q.Fits t ∧ AppendsOnly (fun e => e.isError = false) s t := by
  obtain ⟨t, ht, hit⟩ := everyStepCompletesAndKeepsTheInvariant s hi
  refine ⟨t, ht, hit, ?_⟩
  cases x with
  | reset =>
    rw [step_reset hx] at ht
    cases ht
    exact ⟨rfl, ⟨fun _ => rfl, fun _ => nofun⟩, appendsOnly_of_eq rfl⟩
  | token w =>
    cases hd : decode w with
    | none => simp [HostStage.next, hd] at hn
    | some i =>
      rw [step_token hx, runToken_of_some hd] at ht
      exact ⟨exec_keeps_input (hi.withInput rest) ht,
        HostStage.Fits.exec (s := { s with input := rest }) ⟨h.unlocked, h.notClosed⟩ hd hn ht⟩

theorem HostStage.Fits.run {xs : List Input} : ∀ {p : HostStage} {s : State}, p.Fits s → s.Inv → s.input = xs →
    p.obeys xs = true →
    ∃ t, Sys2Proof.core.run xs.length s = .next t ∧ AppendsOnly (fun e => e.isError = false) s t := by
  induction xs with
  | nil => intro p s _ _ _ _; exact ⟨s, rfl, appendsOnly_of_eq rfl⟩
  | cons x xs ih =>
    intro p s h hi hx hobeys
    obtain ⟨q, hn, hrest⟩ := HostStage.obeys_cons.1 hobeys
    obtain ⟨u, hu, hiu, hxu, hq, hes⟩ := h.step hi hx hn
    obtain ⟨t, ht, hes'⟩ := ih hq hiu hxu hrest
    exact ⟨t, (run_next hu).trans ht, hes.trans hes'⟩

/-- Settles O46, by induction on what arrives: an unlocked block is where a host about to configure needs it. -/
theorem bootOrderCausesNoError : Obligations.BootOrderCausesNoError := by
  intro s hi hl hobeys
  have hfits : HostStage.configure.Fits s := ⟨fun _ => hl, fun _ => hi.open_of_unlocked hl⟩
  obtain ⟨t, ht, es, hout, hes⟩ := hfits.run hi rfl hobeys
  exact ⟨t, es, ht, hout, hes⟩

end Sys2Proof.Machine
end
